-- ==== Sys2Proof/Word.lean ====
section
/-! DEFINITION. The plain data words of the block: bytes and decoded temperatures (spec/00_scope.md R14, R16). -/

namespace Sys2Proof

/-- A byte: unsigned 8 bits, bit 7 the most significant (R14, R16, R53). -/
abbrev Byte := BitVec 8

/-- A decoded temperature register: signed 8 bits, two's complement, whole degrees (R16, R30). -/
abbrev Temp := BitVec 8

/-- The 9-bit step word `{rx_valid, rx_data[7:0]}` (R71). -/
abbrev StepWord := BitVec 9

/-- The 112-bit frame word, offset 0 in its most significant byte (R72). -/
abbrev FrameWord := BitVec 112

end Sys2Proof
end

