-- ==== Sys2Proof/Config.lean ====
section
/-! DEFINITION. The hardwired constants of spec/00_scope.md R8 and the open parameters of R10.
The literals are the source's, not audited against any code (spec/93_implementation_defined.md U1; log entry 14). -/

namespace Sys2Proof

/-- `CLOCK_W`: width of `now` and of `T_LAST`. DESIGN CHOICE: the open parameter of R10 at its default 32
(log entry 4). -/
abbrev Config.clockW : Nat := 32

/-- `Time`: unsigned `CLOCK_W` bits (R16), counting milliseconds (R9). -/
abbrev Time := BitVec Config.clockW

/-- `START`, the start sentinel at frame offset 0 (R8). -/
def Config.START : Byte := 0x32

/-- `END`, the end sentinel at frame offset 13 (R8). -/
def Config.END : Byte := 0x34

/-- `FRAME_LEN`: a frame is exactly 14 bytes (R8). -/
def Config.FRAME_LEN : Nat := 14

/-- `TIMEOUT`: the inactivity threshold in clock units (R8, R9). -/
def Config.TIMEOUT : Nat := 500

/-- `TEMP_OFFSET`: degrees are the raw value less 55 (R8). -/
def Config.TEMP_OFFSET : Nat := 55

/-- `ADDR_INDOOR_1`, bus address of indoor-unit-1 (R8, R56). -/
def Config.ADDR_INDOOR_1 : Byte := 0x20

/-- `ADDR_WIRED_REMOTE`, bus address of the wired remote (R8, R56). -/
def Config.ADDR_WIRED_REMOTE : Byte := 0x84

/-- `CMD_STATUS`, the one modelled command byte (R8). -/
def Config.CMD_STATUS : Byte := 0x52

/-- The mask of a temperature byte (R7, R80). -/
def Config.TEMP_MASK : Byte := 0x7F

/-- The mask of `fan_speed` (R7, R80). -/
def Config.FAN_MASK : Byte := 0x07

/-- The mask of `blade_swing` (R7, R80). -/
def Config.SWING_MASK : Byte := 0xF8

/-- The mask of `power_on` (R80). -/
def Config.POWER_MASK : Byte := 0x80

/-- The mask of `remote_control_source` (R7, R80). -/
def Config.SOURCE_MASK : Byte := 0x0F

/-- The labels of the `FAN_LABEL` table (R10). -/
inductive FanLabel where
  | auto
  | low
  | medium
  | high
deriving DecidableEq, Repr, Inhabited

/-- `FAN_LABEL` for the values 1 to 7: an open parameter that no rule uses, with no body
(R10, R147; spec/93_implementation_defined.md U5; log entry 15). -/
opaque Config.fanLabelOpen : BitVec 3 → FanLabel

/-- `FAN_LABEL`: only `0 = auto` is fixed (R10). It stands outside the block (R32). -/
def Config.fanLabel (v : BitVec 3) : FanLabel :=
  if v = 0 then .auto else Config.fanLabelOpen v

end Sys2Proof
end

