-- ==== Sys2Proof/Syntax.lean ====
section
/-! DEFINITION. The instructions (one constructor per row of spec/opcode_table.json), the two encoded forms
(the step's ports and the 14-byte frame), and the sequencing state that selects a row
(spec/30_encoding.md R70 to R73, R82, R83). -/

namespace Sys2Proof

/-- `FSM`: the two states of the reassembler (spec/10_state.md R24). -/
inductive Fsm where
  | idle
  | receiving
deriving DecidableEq, Repr

/-- `payload[0..7]`, frame offsets 4 to 11 (R72, R74). -/
structure Payload where
  p0 : Byte
  p1 : Byte
  p2 : Byte
  p3 : Byte
  p4 : Byte
  p5 : Byte
  p6 : Byte
  p7 : Byte
deriving DecidableEq, Repr

/-- Format `FRAME14`: the fourteen bytes by name, in the order of their offsets (R55, R72). Any fourteen bytes are
a `Frame`; R73's candidate, valid and recognised frames are predicates on it. -/
structure Frame where
  /-- offset 0 -/
  start : Byte
  /-- offset 1 -/
  source : Byte
  /-- offset 2 -/
  destination : Byte
  /-- offset 3 -/
  command : Byte
  /-- offsets 4 to 11 -/
  payload : Payload
  /-- offset 12 -/
  checksum : Byte
  /-- offset 13 (the field the spec calls `end`) -/
  endByte : Byte
deriving DecidableEq, Repr

/-- The input ports of one step: the operand `now`, the 9-bit step word, and the debug level (R21, R71). -/
structure StepPorts where
  now : Time
  word : StepWord
  dbg : Bool
deriving DecidableEq, Repr

/-- What the two decoders read (R70): a step word with its operands, or a 14-byte frame. -/
inductive Encoded where
  | word (p : StepPorts)
  | frame (f : Frame)
deriving DecidableEq, Repr

/-- The five sub-operations of `BYTE` (R82). -/
inductive ByteOp where
  | idleStart
  | idleNoise
  | recvFill
  | recvEnd
  | recvOverrun
deriving DecidableEq, Repr

/-- The instructions: one constructor for each row of spec/opcode_table.json. The operands are the ones the table
gives the row. A sentinel or a checksum that the row fixes is no operand. -/
inductive Instr where
  /-- TICK (R106) -/
  | tick (now : Time)
  /-- BYTE, the umbrella of the five sub-operations (R107, R96) -/
  | byte (now : Time) (b : Byte) (dbg : Bool)
  /-- BYTE.IDLE.START (R108) -/
  | byteIdleStart
  /-- BYTE.IDLE.NOISE (R109) -/
  | byteIdleNoise (b : Byte)
  /-- BYTE.RECV.FILL (R111) -/
  | byteRecvFill (b : Byte)
  /-- BYTE.RECV.END (R113) -/
  | byteRecvEnd (dbg : Bool)
  /-- BYTE.RECV.OVERRUN (R114) -/
  | byteRecvOverrun (b : Byte)
  /-- FRAME.STATUS52 (R141) -/
  | frameStatus52 (payload : Payload)
  /-- FRAME.UNRECOGNISED (R143) -/
  | frameUnrecognised (source destination command : Byte) (payload : Payload)
deriving DecidableEq, Repr

end Sys2Proof
end

