-- ==== Sys2Proof/WellFormed.lean ====
section
/-! DEFINITION. Which instruction terms stand for an encoding of the table (spec/30_encoding.md R82, R83). -/

namespace Sys2Proof

/-- The recognised key (R83, R142). -/
def isRecognisedKey (source destination command : Byte) : Bool :=
  source == Config.ADDR_INDOOR_1 && destination == Config.ADDR_WIRED_REMOTE && command == Config.CMD_STATUS

/-- A term is well formed when its operands belong to its row: noise is no start sentinel, an overrun's byte is no
end sentinel, and an unrecognised frame has not the recognised key. Every other operand takes every value
(R82, R83, R90). -/
def wellFormed : Instr → Bool
  | .tick _ => true
  | .byte _ _ _ => true
  | .byteIdleStart => true
  | .byteIdleNoise b => b != Config.START
  | .byteRecvFill _ => true
  | .byteRecvEnd _ => true
  | .byteRecvOverrun b => b != Config.END
  | .frameStatus52 _ => true
  | .frameUnrecognised source destination command _ => !isRecognisedKey source destination command

end Sys2Proof
end

