-- ==== Sys2Proof/Machine/FrameMap.lean ====
section
/-! DEFINITION. The map of the frame-offset space (spec/20_memory.md R52, R55; spec/30_encoding.md R72, R74): a
frame as its fourteen bytes, and as the 112-bit word. -/

namespace Sys2Proof

/-- The fourteen bytes in the order of their offsets (R52, R72). -/
def Frame.toBytes (f : Frame) : List Byte :=
  [f.start, f.source, f.destination, f.command,
   f.payload.p0, f.payload.p1, f.payload.p2, f.payload.p3,
   f.payload.p4, f.payload.p5, f.payload.p6, f.payload.p7,
   f.checksum, f.endByte]

/-- Fourteen bytes read as a frame; any other number of bytes is no frame (R72, R97). -/
def Frame.ofBytes? : List Byte → Option Frame
  | [b0, b1, b2, b3, b4, b5, b6, b7, b8, b9, b10, b11, b12, b13] =>
      some ⟨b0, b1, b2, b3, ⟨b4, b5, b6, b7, b8, b9, b10, b11⟩, b12, b13⟩
  | _ => none

/-- Byte `k` of the 112-bit word: bits `111 - 8k` down to `104 - 8k` (R72). -/
def frameWordByte (w : FrameWord) (k : Nat) : Byte :=
  w.extractLsb' (104 - 8 * k) 8

/-- The frame a 112-bit word stands for (R72). -/
def Frame.ofWord (w : FrameWord) : Frame :=
  ⟨frameWordByte w 0, frameWordByte w 1, frameWordByte w 2, frameWordByte w 3,
   ⟨frameWordByte w 4, frameWordByte w 5, frameWordByte w 6, frameWordByte w 7,
    frameWordByte w 8, frameWordByte w 9, frameWordByte w 10, frameWordByte w 11⟩,
   frameWordByte w 12, frameWordByte w 13⟩

/-- The 112-bit word of a frame, offset 0 most significant (R72). -/
def Frame.toWord (f : Frame) : FrameWord :=
  f.toBytes.foldl (fun w b => (w <<< 8) ||| b.setWidth 112) 0

end Sys2Proof
end

