-- ==== Sys2Proof/Machine/Validator.lean ====
section
/-! DEFINITION. The Checksum Validator (spec/41_checksum_validator.md R130 to R133) and the frame classes of
spec/30_encoding.md R73. -/

namespace Sys2Proof

/-- Frame offsets 1 to 11, the bytes the checksum covers (R130; `CHK_FIRST`, `CHK_LAST` of R8). -/
def Frame.covered (f : Frame) : List Byte :=
  [f.source, f.destination, f.command,
   f.payload.p0, f.payload.p1, f.payload.p2, f.payload.p3,
   f.payload.p4, f.payload.p5, f.payload.p6, f.payload.p7]

/-- `XorSum(f)`: the running exclusive-or of offsets 1 to 11 (R130, R84). -/
def xorSum (f : Frame) : Byte :=
  f.covered.foldl (· ^^^ ·) 0

/-- `Validate(f)`: pass or fail, and the computed checksum (R131). It is total on any fourteen bytes, start test
included (R132), and does not look at offset 13 (R133). -/
def validate (f : Frame) : Bool × Byte :=
  let c := xorSum f
  (c == f.checksum && f.start == Config.START, c)

/-- A candidate frame: both sentinels in place (R73). -/
def Frame.isCandidate (f : Frame) : Bool :=
  f.start == Config.START && f.endByte == Config.END

/-- A valid frame: a candidate frame that passes `Validate` (R73). -/
def Frame.isValid (f : Frame) : Bool :=
  f.isCandidate && (validate f).1

/-- The frame's key is the recognised one (R140, R142). -/
def Frame.hasRecognisedKey (f : Frame) : Bool :=
  isRecognisedKey f.source f.destination f.command

/-- The frame with its checksum byte set to the exclusive-or of offsets 1 to 11. -/
def Frame.withChecksum (f : Frame) : Frame :=
  { f with checksum := xorSum f }

/-- `FRAME(s, d, c; p0 .. p7)` of the stimulus notation: the valid frame with this key and payload (R95). -/
def Frame.build (source destination command : Byte) (payload : Payload) : Frame :=
  Frame.withChecksum ⟨Config.START, source, destination, command, payload, 0, Config.END⟩

end Sys2Proof
end

