-- ==== Sys2Proof/Decode.lean ====
section
/-! DEFINITION. The two decoders of spec/30_encoding.md R70 (the step decoder, in its two levels, and the frame
decoder), the encoder, and the host's reading of a table word. -/

namespace Sys2Proof

/-- `rx_valid`, bit 8 of the step word (R71). -/
def StepPorts.rxValid (p : StepPorts) : Bool := p.word.getLsbD 8

/-- `rx_data`, bits 7:0 of the step word (R71). -/
def StepPorts.rxData (p : StepPorts) : Byte := p.word.extractLsb' 0 8

/-- The step word `{rx_valid, rx_data}` (R71). -/
def stepWord (rxValid : Bool) (rxData : Byte) : StepWord :=
  BitVec.ofBool rxValid ++ rxData

/-- The first level of the step decoder: `rx_valid` alone selects `TICK` or `BYTE` (R71, R82). It cannot fail
(R90). -/
def decodeStep (p : StepPorts) : Instr :=
  if p.rxValid then .byte p.now p.rxData p.dbg else .tick p.now

/-- The second level: which sub-operation of `BYTE` the sequencing state at the byte phase and the byte select
(R82). The tests stand in the order of R100's listing: completion, then overrun with the source's `>=` (R115), then
fill; `len` is the length before the append. -/
def selectByteOp (fsm : Fsm) (len : Nat) (b : Byte) : ByteOp :=
  match fsm with
  | .idle => if b = Config.START then .idleStart else .idleNoise
  | .receiving =>
    if len + 1 = Config.FRAME_LEN ∧ b = Config.END then .recvEnd
    else if Config.FRAME_LEN ≤ len + 1 then .recvOverrun
    else .recvFill

/-- The instruction a sub-operation with its byte and debug level is. -/
def ByteOp.toInstr (op : ByteOp) (b : Byte) (dbg : Bool) : Instr :=
  match op with
  | .idleStart => .byteIdleStart
  | .idleNoise => .byteIdleNoise b
  | .recvFill => .byteRecvFill b
  | .recvEnd => .byteRecvEnd dbg
  | .recvOverrun => .byteRecvOverrun b

/-- Why an encoded form is no instruction. -/
inductive Reject where
  /-- The byte phase was asked for on a step word without a byte (R100: the phase runs only when `rx_valid` is 1). -/
  | noByte
  /-- Not fourteen bytes (R72, R97). -/
  | badLength
  /-- Offset 0 is not the start sentinel: no candidate frame (R73). -/
  | badStart
  /-- Offset 13 is not the end sentinel: no candidate frame (R73). -/
  | badEnd
  /-- A candidate frame that fails `Validate`: the frame decoder is never applied to it (R140; U10). -/
  | badChecksum
deriving DecidableEq, Repr

/-- The frame decoder: the key selects the one recognised decode or the no-op, for a valid frame (R83, R140). -/
def decodeFrame (f : Frame) : Except Reject Instr :=
  if f.start ≠ Config.START then .error .badStart
  else if f.endByte ≠ Config.END then .error .badEnd
  else if (validate f).1 = false then .error .badChecksum
  else if f.hasRecognisedKey then .ok (.frameStatus52 f.payload)
  else .ok (.frameUnrecognised f.source f.destination f.command f.payload)

/-- The frame decoder on any bytes. -/
def decodeFrameBytes (bs : List Byte) : Except Reject Instr :=
  match Frame.ofBytes? bs with
  | some f => decodeFrame f
  | none => .error .badLength

/-- Which level of the step decoder reads a step word: the word alone (rows TICK and BYTE), or the byte phase in a
given sequencing state (the five sub-operation rows; R96). -/
inductive DecodeLevel where
  | step
  | bytePhase (fsm : Fsm) (len : Nat)
deriving DecidableEq, Repr

/-- The decoders together, total on every encoded form, rejecting by name. -/
def decode (level : DecodeLevel) (e : Encoded) : Except Reject Instr :=
  match e with
  | .frame f => decodeFrame f
  | .word p =>
    match level with
    | .step => .ok (decodeStep p)
    | .bytePhase fsm len =>
      if p.rxValid then .ok ((selectByteOp fsm len p.rxData).toInstr p.rxData p.dbg) else .error .noByte

/-- The level and sequencing state in which a row of the table applies (R82, R96). A frame row applies at every
level: a frame is a format of its own. -/
def appliesAt (i : Instr) (level : DecodeLevel) : Bool :=
  match i, level with
  | .tick _, .step => true
  | .byte _ _ _, .step => true
  | .byteIdleStart, .bytePhase .idle _ => true
  | .byteIdleNoise _, .bytePhase .idle _ => true
  | .byteRecvFill _, .bytePhase .receiving len => decide (len + 1 < Config.FRAME_LEN)
  | .byteRecvEnd _, .bytePhase .receiving len => decide (len + 1 = Config.FRAME_LEN)
  | .byteRecvOverrun _, .bytePhase .receiving len => decide (Config.FRAME_LEN ≤ len + 1)
  | .frameStatus52 _, _ => true
  | .frameUnrecognised _ _ _ _, _ => true
  | _, _ => false

/-- The encoded form of an instruction, from the formats of R71 and R72. Bits and operands that the row does not
read are written 0: `rx_data` and `dbg` of TICK, `now` of the sub-operations, `dbg` where the row has none. -/
def encode : Instr → Encoded
  | .tick now => .word ⟨now, stepWord false 0, false⟩
  | .byte now b dbg => .word ⟨now, stepWord true b, dbg⟩
  | .byteIdleStart => .word ⟨0, stepWord true Config.START, false⟩
  | .byteIdleNoise b => .word ⟨0, stepWord true b, false⟩
  | .byteRecvFill b => .word ⟨0, stepWord true b, false⟩
  | .byteRecvEnd dbg => .word ⟨0, stepWord true Config.END, dbg⟩
  | .byteRecvOverrun b => .word ⟨0, stepWord true b, false⟩
  | .frameStatus52 payload =>
      .frame (Frame.build Config.ADDR_INDOOR_1 Config.ADDR_WIRED_REMOTE Config.CMD_STATUS payload)
  | .frameUnrecognised source destination command payload =>
      .frame (Frame.build source destination command payload)

/-- One row of format STEP, as spec/opcode_table.json has it: match, mask and the state condition (R96). -/
structure StepRow where
  mnemonic : String
  pattern : StepWord
  mask : StepWord
  /-- the row's level: the word alone, or the byte phase of a state with `minLen ≤ len ≤ maxLen` -/
  state : Option Fsm
  minLen : Nat
  maxLen : Nat
deriving DecidableEq, Repr

/-- The seven STEP rows in the table's order (spec/opcode_table.json). -/
def stepRows : List StepRow :=
  [⟨"TICK", 0x000, 0x100, none, 0, 0⟩,
   ⟨"BYTE", 0x100, 0x100, none, 0, 0⟩,
   ⟨"BYTE.IDLE.START", 0x132, 0x1FF, some .idle, 0, 0⟩,
   ⟨"BYTE.IDLE.NOISE", 0x100, 0x100, some .idle, 0, 0⟩,
   ⟨"BYTE.RECV.FILL", 0x100, 0x100, some .receiving, 1, 12⟩,
   ⟨"BYTE.RECV.END", 0x134, 0x1FF, some .receiving, 13, 13⟩,
   ⟨"BYTE.RECV.OVERRUN", 0x100, 0x100, some .receiving, 13, 13⟩]

/-- The row's state condition at a level (R96). -/
def StepRow.at (r : StepRow) (level : DecodeLevel) : Bool :=
  match level, r.state with
  | .step, none => true
  | .bytePhase fsm len, some fsm' => decide (fsm = fsm' ∧ r.minLen ≤ len ∧ len ≤ r.maxLen)
  | _, _ => false

/-- The mnemonic the table gives a step word: within one state condition, the first row that matches (R96). -/
def tableLookup (level : DecodeLevel) (w : StepWord) : Option String :=
  (stepRows.find? (fun r => r.at level && (w &&& r.mask == r.pattern))).map StepRow.mnemonic

/-- The row's mnemonic in spec/opcode_table.json. -/
def Instr.mnemonic : Instr → String
  | .tick _ => "TICK"
  | .byte _ _ _ => "BYTE"
  | .byteIdleStart => "BYTE.IDLE.START"
  | .byteIdleNoise _ => "BYTE.IDLE.NOISE"
  | .byteRecvFill _ => "BYTE.RECV.FILL"
  | .byteRecvEnd _ => "BYTE.RECV.END"
  | .byteRecvOverrun _ => "BYTE.RECV.OVERRUN"
  | .frameStatus52 _ => "FRAME.STATUS52"
  | .frameUnrecognised _ _ _ _ => "FRAME.UNRECOGNISED"

/-- The step's ports that a table word of format STEP stands for: the step word in the low nine bits; the operand
ports `now` and `dbg`, to which the table gives no bits, at 0 (log entry 9). -/
def portsOfTableWord (w : Nat) : StepPorts := ⟨0, BitVec.ofNat 9 w, false⟩

/-- The frame that a table word of format FRAME14 stands for. The table gives the checksum byte no bits (its mask
leaves it out, R83): where the word leaves it 0 it is filled as `FRAME(...)` fills it (R95; log entry 10). -/
def frameOfTableWord (w : Nat) : Frame :=
  let f := Frame.ofWord (BitVec.ofNat 112 w)
  if f.checksum = 0 then f.withChecksum else f

/-- The host's reading of a table word (log entry 9): 112 bits are a frame, up to 16 bits are a step word, which is
read by the step decoder's first level, the level that needs no state. -/
def decodeTableWord (nbits w : Nat) : Option Instr :=
  if nbits = 112 then
    match decodeFrame (frameOfTableWord w) with
    | .ok i => some i
    | .error _ => none
  else if nbits ≤ 16 then some (decodeStep (portsOfTableWord w))
  else none

end Sys2Proof
end

