-- ==== Sys2Proof/Machine/State.lean ====
section
/-! DEFINITION. The machine's state (spec/10_state.md R23), its outputs of the last step, and the reset state (R44). -/

namespace Sys2Proof.Machine

/-- The frame-offset space, the block's only byte-addressed storage (spec/20_memory.md R50): the bytes at offsets
`0` to `LEN - 1`, in order. An offset at or above `LEN` holds no architectural value (R37), so the list IS `BUF` and
`LEN` together (R25; log entry 7), and equal memories are equal lists. -/
abbrev Memory := List Byte

/-- The form of a memory: never more than fourteen bytes, even inside a step (R36). -/
abbrev Memory.wf (m : Memory) : Bool := decide (m.length ≤ Config.FRAME_LEN)

/-- The seven registers of the State Store (spec/10_state.md R30). -/
structure StoreFields where
  setTemperature : Temp
  roomTemperature : Temp
  pipeInTemperature : Temp
  fanSpeed : BitVec 3
  bladeSwing : Bool
  powerOn : Bool
  remoteControlSource : BitVec 4
deriving DecidableEq, Repr

/-- One record of the log output `LOG` (spec/43_state_store.md R178). -/
inductive LogRecord where
  | timeout (bytes : List Byte)
  | overrun (bytes : List Byte)
  | checksumFail (frame : Frame) (computed received : Byte)
  | dump (frame : Frame)
deriving DecidableEq, Repr

/-- The input ports at one rising edge of `clk` (spec/10_state.md R20, R21). -/
structure Edge where
  rst : Bool
  stepEn : Bool
  ports : StepPorts
deriving DecidableEq, Repr

/-- The state. `fsm`, `buf`, `tLast` and `store` are R23's state; `log` holds the output of the step just executed
(R33, R22); `inputs` is the model's own: what the environment will present, oldest first (log entry 1). -/
structure State where
  /-- `FSM` (R24) -/
  fsm : Fsm
  /-- `BUF[0 .. LEN-1]`; `LEN` is its length (R25, R26) -/
  buf : Memory
  /-- `T_LAST` (R28) -/
  tLast : Time
  /-- `ST.valid` and the seven registers, which hold no value while `ST.valid` is 0 (R30, R31; log entry 6) -/
  store : Option StoreFields
  /-- `LOG` of the step just executed (R33, R178; log entry 3) -/
  log : List LogRecord
  /-- the input samples still to come, one per clock edge (log entry 1) -/
  inputs : List Edge
deriving DecidableEq, Repr

/-- Why a step could stop with a fault: no reason exists. The spec's block never faults (spec/00_scope.md R13,
spec/40_reassembler.md R101, spec/60_exceptions.md R200; log entry 18). -/
inductive Fault where
deriving DecidableEq, Repr

/-- Why a meaning gives no next state. No step of the machine ends in one of these. -/
inductive Refusal where
  /-- An arm of `exec` whose instruction has no meaning yet raises it; no arm does. Safe: nothing can be proved of
  what such an instruction does. -/
  | notModelled (mnemonic : String)
  /-- A sub-operation of BYTE or a frame operation, asked of `exec` in a state or with an operand for which the
  spec's decoders do not select it (R82, R83). Raised by those meanings. Safe: the machine never does it, and
  nothing can be proved of what it would do (log entry 8). -/
  | notSelected
deriving DecidableEq, Repr

/-- The state after reset: `FSM = IDLE`, `LEN = 0`, `ST.valid = 0`, `ev_code = ev_dump = 0` (R44). `T_LAST` is
unspecified there: DESIGN CHOICE 0 (log entry 5). No input is pending (log entry 2). -/
def State.reset : State where
  fsm := .idle
  buf := []
  tLast := 0
  store := none
  log := []
  inputs := []

end Sys2Proof.Machine
end

