-- ==== Sys2Proof/Machine/Ops.lean ====
section
/-! DEFINITION. The named operations over the state: the buffer, the clock comparison, the log, raising a condition
(the one shared operation of spec/60_exceptions.md R213), reset, and the environment's inputs. -/

namespace Sys2Proof.Machine

/-- `LEN` (R26). -/
def State.len (s : State) : Nat := s.buf.length

/-- `MemRead(off, 1)`: the byte at a frame offset below `LEN`; no value at or above it (R15, R37, R50). -/
def memRead (s : State) (off : Nat) : Option Byte := s.buf[off]?

/-- `MemWrite(LEN, 1, b)` and `LEN <- LEN + 1`, the append of R110. -/
def memAppend (m : Memory) (b : Byte) : Memory := m ++ [b]

/-- `BUF[LEN] <- b ; LEN <- LEN + 1` (R110). -/
def appendByte (b : Byte) (s : State) : State := { s with buf := memAppend s.buf b }

/-- `LEN <- 0 ; FSM <- IDLE`: "clear the buffer" and the transition to IDLE (R26, R105, R113, R114). -/
def clearBuffer (s : State) : State := { s with buf := [], fsm := .idle }

/-- `BUF[0] <- 0x32 ; LEN <- 1 ; FSM <- RECEIVING` (R108). -/
def startBuffer (s : State) : State := { s with buf := memAppend [] Config.START, fsm := .receiving }

/-- `T_LAST <- now` (R107). -/
def setTLast (now : Time) (s : State) : State := { s with tLast := now }

/-- `LOG <- empty` at the start of a step (R100). -/
def beginStep (s : State) : State := { s with log := [] }

/-- Append one record to `LOG` (R15). -/
def logRecord (r : LogRecord) (s : State) : State := { s with log := s.log ++ [r] }

/-- The five conditions of the error taxonomy (R203), each with the data it records. -/
inductive Condition where
  | framing
  | timeout
  | overrun
  | checksumFailure (frame : Frame) (computed received : Byte)
  | unrecognisedKey
deriving DecidableEq, Repr

/-- `raise`: append the condition's record, if it has one, and perform its entry actions (R15, R200, R213). The
framing error and the unrecognised key record nothing and change nothing; a checksum failure finds the buffer
already cleared. -/
def raise (c : Condition) (s : State) : State :=
  match c with
  | .framing => s
  | .timeout => clearBuffer (logRecord (.timeout s.buf) s)
  | .overrun => clearBuffer (logRecord (.overrun s.buf) s)
  | .checksumFailure f computed received => logRecord (.checksumFail f computed received) s
  | .unrecognisedKey => s

/-- `elapsed = (now - T_LAST) mod 2^CLOCK_W` (R104, R86). -/
def elapsed (now tLast : Time) : Time := now - tLast

/-- The timeout condition: RECEIVING, and 500 or more units since the last byte processed (R103; log entry 13 on
exactly 500). -/
def timeoutFires (now : Time) (s : State) : Bool :=
  s.fsm == .receiving && decide (Config.TIMEOUT ≤ (elapsed now s.tLast).toNat)

/-- The timeout phase, first in every step (R102, R103, R105). -/
def timeoutPhase (now : Time) (s : State) : State :=
  if timeoutFires now s then raise .timeout s else s

/-- What every BYTE step does before its byte phase: `LOG <- empty`, the timeout phase, `T_LAST <- now`
(R100, R107). -/
def byteCommon (now : Time) (s : State) : State :=
  setTLast now (timeoutPhase now (beginStep s))

/-- Reset: every field at its reset value; the environment's further inputs are not the block's to forget
(R240, R241). -/
def applyReset (s : State) : State := { State.reset with inputs := s.inputs }

/-- The next edge the environment presents, and the state with it taken; none when no edge is pending
(log entries 1, 2). -/
def takeEdge (s : State) : Option (Edge × State) :=
  match s.inputs with
  | [] => none
  | e :: rest => some (e, { s with inputs := rest })

/-- An edge that carries a step (R20). -/
def stepEdge (p : StepPorts) : Edge := ⟨false, true, p⟩

/-- `@now: -`, one TICK (R94). -/
def tickEdge (now : Time) (dbg : Bool) : Edge := stepEdge ⟨now, stepWord false 0, dbg⟩

/-- `@now: b`, one BYTE (R94). -/
def byteEdge (now : Time) (dbg : Bool) (b : Byte) : Edge := stepEdge ⟨now, stepWord true b, dbg⟩

/-- `@now: b0 b1 ... bn`, one BYTE per byte at one clock reading (R95, R117). -/
def batch (now : Time) (dbg : Bool) (bs : List Byte) : List Edge := bs.map (byteEdge now dbg)

/-- `RESET` (R94, R240). -/
def resetEdge : Edge := ⟨true, false, ⟨0, 0, false⟩⟩

/-- An edge without reset and without a step: nothing changes (R20). -/
def idleEdge (p : StepPorts) : Edge := ⟨false, false, p⟩

/-- The environment presents one more step, before all it had pending. -/
def presentStep (p : StepPorts) (s : State) : State := { s with inputs := stepEdge p :: s.inputs }

/-- The state in which the next step completes this frame: RECEIVING at clock reading 0 with its first thirteen
bytes buffered, and the fourteenth presented (log entry 9). -/
def presentFrame (f : Frame) (s : State) : State :=
  { s with
    fsm := .receiving
    buf := f.toBytes.take 13
    tLast := 0
    inputs := byteEdge 0 false f.endByte :: s.inputs }

end Sys2Proof.Machine
end

