-- ==== Sys2Proof/Machine/Operands.lean ====
section
/-! DEFINITION. Field assembly: the seven extractions of the recognised frame and the temperature decoding
(spec/30_encoding.md R75 to R81, spec/42_frame_decoder.md R144 to R153), and the State Store read port. -/

namespace Sys2Proof.Machine

/-- `TempDecode(r) = r - 55` on a 7-bit magnitude, computed exactly and held in the signed 8-bit register
(R151, R85). -/
def tempDecode (r : BitVec 7) : Temp :=
  BitVec.ofInt 8 ((r.toNat : Int) - (Config.TEMP_OFFSET : Int))

/-- The temperature of a payload byte: masked with 0x7F, zero-extended, decoded (R76, R81, R144). -/
def temperatureOf (b : Byte) : Temp :=
  tempDecode ((b &&& Config.TEMP_MASK).setWidth 7)

/-- `fan_speed`: bits 2:0, stored raw (R147). -/
def fanSpeedOf (b : Byte) : BitVec 3 :=
  (b &&& Config.FAN_MASK).setWidth 3

/-- `blade_swing`: true iff bits 7:3 are all 1 (R148). -/
def bladeSwingOf (b : Byte) : Bool :=
  (b &&& Config.SWING_MASK) == Config.SWING_MASK

/-- `power_on`: bit 7 (R149). -/
def powerOnOf (b : Byte) : Bool :=
  (b &&& Config.POWER_MASK) == Config.POWER_MASK

/-- `remote_control_source`: bits 3:0, stored raw (R150). -/
def remoteControlSourceOf (b : Byte) : BitVec 4 :=
  (b &&& Config.SOURCE_MASK).setWidth 4

/-- The values `DecodeStatus52` writes: a function of the payload alone (R141, R80). -/
def decodedFields (p : Payload) : StoreFields where
  setTemperature := temperatureOf p.p0
  roomTemperature := temperatureOf p.p1
  pipeInTemperature := temperatureOf p.p2
  fanSpeed := fanSpeedOf p.p3
  bladeSwing := bladeSwingOf p.p3
  powerOn := powerOnOf p.p4
  remoteControlSource := remoteControlSourceOf p.p4

/-- `ST.<field> <- v` for the seven fields and `ST.valid <- 1`, together (R141, R61). -/
def writeStore (v : StoreFields) (s : State) : State := { s with store := some v }

/-- The seven field names that key the State Store (R30, R50). -/
inductive FieldName where
  | setTemperature
  | roomTemperature
  | pipeInTemperature
  | fanSpeed
  | bladeSwing
  | powerOn
  | remoteControlSource
deriving DecidableEq, Repr

/-- A typed field value (R18, R30). -/
inductive FieldValue where
  | temperature (v : Temp)
  | level (v : BitVec 3)
  | flag (v : Bool)
  | bits (v : BitVec 4)
deriving DecidableEq, Repr

/-- One register of the store by name (R30). -/
def StoreFields.get (v : StoreFields) : FieldName → FieldValue
  | .setTemperature => .temperature v.setTemperature
  | .roomTemperature => .temperature v.roomTemperature
  | .pipeInTemperature => .temperature v.pipeInTemperature
  | .fanSpeed => .level v.fanSpeed
  | .bladeSwing => .flag v.bladeSwing
  | .powerOn => .flag v.powerOn
  | .remoteControlSource => .bits v.remoteControlSource

/-- The read port by key (unit, field name): the current value, on request, without effect (R171, R50, R60). The one
unit is the one at 0x20 (R30, R158); no entry exists before the first decode (R31). -/
def State.readStore (s : State) (unit : Byte) (name : FieldName) : Option FieldValue :=
  if unit = Config.ADDR_INDOOR_1 then s.store.map (fun v => v.get name) else none

end Sys2Proof.Machine
end

