-- ==== Sys2Proof/Machine/Flags.lean ====
section
/-! DEFINITION. The block's flags: `ST.valid` and the per-step `ev_*` pulses (spec/10_state.md R33), with the output
ports of R22 and the port encoding of spec/43_state_store.md R179. There are no condition codes (R33). -/

namespace Sys2Proof.Machine

/-- `ST.valid` (R31). -/
def State.stValid (s : State) : Bool := s.store.isSome

/-- The warning code of a record; a dump is no warning (R203, R179). -/
def LogRecord.code : LogRecord → BitVec 2
  | .timeout _ => 1
  | .overrun _ => 2
  | .checksumFail _ _ _ => 3
  | .dump _ => 0

/-- `ev_code` of a condition; the two silent ones have 0 (R203). -/
def Condition.code : Condition → BitVec 2
  | .framing => 0
  | .timeout => 1
  | .overrun => 2
  | .checksumFailure _ _ _ => 3
  | .unrecognisedKey => 0

/-- The raw bytes a record carries, offset 0 first (R178). -/
def LogRecord.bytes : LogRecord → List Byte
  | .timeout bs => bs
  | .overrun bs => bs
  | .checksumFail f _ _ => f.toBytes
  | .dump f => f.toBytes

/-- The record is a debug dump (R181). -/
def LogRecord.isDump : LogRecord → Bool
  | .dump _ => true
  | _ => false

/-- The two checksum values a record carries, as (computed, received) (R178). -/
def LogRecord.checksums : LogRecord → Option (Byte × Byte)
  | .checksumFail _ computed received => some (computed, received)
  | _ => none

/-- The `ev_*` ports (R22, R179). `bytes` holds exactly the `ev_len` specified entries and `checksums` is present
exactly when `ev_code` is 3: the unspecified values are not represented (U4; log entry 11). -/
structure EvPorts where
  code : BitVec 2
  dump : Bool
  len : BitVec 4
  bytes : List Byte
  checksums : Option (Byte × Byte)
deriving DecidableEq, Repr

/-- The port encoding of `LOG` (R179). One set of raw bytes serves a dump and its warning (R180). -/
def evPorts (log : List LogRecord) : EvPorts :=
  let warning := log.find? (fun r => !r.isDump)
  let bytes := (log.head?.map LogRecord.bytes).getD []
  { code := (warning.map LogRecord.code).getD 0
    dump := log.any LogRecord.isDump
    len := BitVec.ofNat 4 bytes.length
    bytes := bytes
    checksums := warning.bind LogRecord.checksums }

/-- `fsm_state`: 0 IDLE, 1 RECEIVING (R22, R24). -/
def fsmCode : Fsm → BitVec 1
  | .idle => 0
  | .receiving => 1

/-- The output ports (R22). The seven `st_*` value ports are present exactly while `st_valid` is 1 (R31). -/
structure Outputs where
  stValid : Bool
  st : Option StoreFields
  ev : EvPorts
  fsmState : BitVec 1
  bufLen : BitVec 4
deriving DecidableEq, Repr

/-- What the ports show between two steps (R22, R171). -/
def State.outputs (s : State) : Outputs where
  stValid := s.stValid
  st := s.store
  ev := evPorts s.log
  fsmState := fsmCode s.fsm
  bufLen := BitVec.ofNat 4 s.len

end Sys2Proof.Machine
end

