-- ==== Sys2Proof/Machine/FrameDecoder.lean ====
section
/-! DEFINITION. The FRAME14 family: the meanings of FRAME.STATUS52 and FRAME.UNRECOGNISED, `Decode` and `Emit`
(spec/42_frame_decoder.md R140 to R143, spec/41_checksum_validator.md R134). -/

namespace Sys2Proof.Machine

/-- FRAME.STATUS52: the seven State Store registers and `ST.valid` are written together, and nothing else (R141). -/
def execFrameStatus52 (payload : Payload) (s : State) : Host.Outcome State Fault Refusal :=
  .next (writeStore (decodedFields payload) s)

/-- FRAME.UNRECOGNISED: a defined no-op, for every key but the recognised one (R143, R91). -/
def execFrameUnrecognised (source destination command : Byte) (_payload : Payload) (s : State) :
    Host.Outcome State Fault Refusal :=
  if isRecognisedKey source destination command then .refused .notSelected
  else .next (raise .unrecognisedKey s)

/-- `Decode(f)`: the key selects the recognised decode or the no-op (R140). -/
def decodeAndRun (f : Frame) (s : State) : Host.Outcome State Fault Refusal :=
  if f.hasRecognisedKey then execFrameStatus52 f.payload s
  else execFrameUnrecognised f.source f.destination f.command f.payload s

/-- `log Dump(f)` when `DBG` is 1 (R134, R181). -/
def logDump (f : Frame) (dbg : Bool) (s : State) : State :=
  if dbg then logRecord (.dump f) s else s

/-- `Emit(f, DBG)`: the dump, then `Validate`, then on pass the decode, on fail the checksum failure (R134). -/
def emit (f : Frame) (dbg : Bool) (s : State) : Host.Outcome State Fault Refusal :=
  if (validate f).1 then decodeAndRun f (logDump f dbg s)
  else .next (raise (.checksumFailure f (validate f).2 f.checksum) (logDump f dbg s))

end Sys2Proof.Machine
end

