-- ==== Sys2Proof/Machine/Reassembler.lean ====
section
/-! DEFINITION. The STEP family: the meanings of TICK, BYTE and its five sub-operations (spec/40_reassembler.md
R100 to R116). A sub-operation is the byte phase alone: the common part is BYTE's (R96, R107). -/

namespace Sys2Proof.Machine

/-- TICK: `LOG <- empty` and the timeout phase, nothing else (R100, R106). -/
def execTick (now : Time) (s : State) : Host.Outcome State Fault Refusal :=
  .next (timeoutPhase now (beginStep s))

/-- BYTE.IDLE.START: the start sentinel opens a buffer (R108). -/
def execByteIdleStart (s : State) : Host.Outcome State Fault Refusal :=
  if s.fsm = .idle then .next (startBuffer s) else .refused .notSelected

/-- BYTE.IDLE.NOISE: the byte is discarded, a framing error without a record (R109, R205). -/
def execByteIdleNoise (b : Byte) (s : State) : Host.Outcome State Fault Refusal :=
  if s.fsm = .idle ∧ b ≠ Config.START then .next (raise .framing s) else .refused .notSelected

/-- BYTE.RECV.FILL: the append and nothing else, whatever the byte (R110, R111, R112). -/
def execByteRecvFill (b : Byte) (s : State) : Host.Outcome State Fault Refusal :=
  if s.fsm = .receiving ∧ s.len + 1 < Config.FRAME_LEN then .next (appendByte b s)
  else .refused .notSelected

/-- BYTE.RECV.END: the append of the end sentinel, `f := BUF[0 .. 13]`, the clear, and `Emit(f, DBG)` (R113). -/
def execByteRecvEnd (dbg : Bool) (s : State) : Host.Outcome State Fault Refusal :=
  match s.fsm, Frame.ofBytes? (appendByte Config.END s).buf with
  | .receiving, some f => emit f dbg (clearBuffer s)
  | _, _ => .refused .notSelected

/-- BYTE.RECV.OVERRUN: the append, then the length overrun with all the bytes (R114). The length test is the
source's `>=` (R115). -/
def execByteRecvOverrun (b : Byte) (s : State) : Host.Outcome State Fault Refusal :=
  if s.fsm = .receiving ∧ Config.FRAME_LEN ≤ s.len + 1 ∧ ¬(s.len + 1 = Config.FRAME_LEN ∧ b = Config.END) then
    .next (raise .overrun (appendByte b s))
  else .refused .notSelected

/-- The byte phase: exactly one of the five sub-operations, selected by the state after the timeout phase
(R100, R107, R116). -/
def bytePhase (b : Byte) (dbg : Bool) (s : State) : Host.Outcome State Fault Refusal :=
  match selectByteOp s.fsm s.len b with
  | .idleStart => execByteIdleStart s
  | .idleNoise => execByteIdleNoise b s
  | .recvFill => execByteRecvFill b s
  | .recvEnd => execByteRecvEnd dbg s
  | .recvOverrun => execByteRecvOverrun b s

/-- BYTE: the common part, then the byte phase (R100, R107). -/
def execByte (now : Time) (b : Byte) (dbg : Bool) (s : State) : Host.Outcome State Fault Refusal :=
  bytePhase b dbg (byteCommon now s)

end Sys2Proof.Machine
end

