-- ==== Sys2Proof/Machine/Dispatch.lean ====
section
/-! DEFINITION. The dispatch: one arm per instruction. -/

namespace Sys2Proof.Machine

def exec (i : Instr) (s : State) : Host.Outcome State Fault Refusal :=
  match i with
  | .tick now => Sys2Proof.Machine.execTick now s
  | .byte now b dbg => Sys2Proof.Machine.execByte now b dbg s
  | .byteIdleStart => Sys2Proof.Machine.execByteIdleStart s
  | .byteIdleNoise b => Sys2Proof.Machine.execByteIdleNoise b s
  | .byteRecvFill b => Sys2Proof.Machine.execByteRecvFill b s
  | .byteRecvEnd dbg => Sys2Proof.Machine.execByteRecvEnd dbg s
  | .byteRecvOverrun b => Sys2Proof.Machine.execByteRecvOverrun b s
  | .frameStatus52 payload => Sys2Proof.Machine.execFrameStatus52 payload s
  | .frameUnrecognised source destination command payload => Sys2Proof.Machine.execFrameUnrecognised source destination command payload s

end Sys2Proof.Machine
end

