-- ==== Sys2Proof/Machine/Clock.lean ====
section
/-! DEFINITION. What one rising edge of `clk` does (spec/10_state.md R20, spec/70_reset_and_hazards.md R240). -/

namespace Sys2Proof.Machine

/-- One edge: reset wins over the strobe; with the strobe, the step the ports encode is executed; with neither,
nothing changes (R20, R240). -/
def clockEdge (e : Edge) (s : State) : Host.Outcome State Fault Refusal :=
  if e.rst then .next (applyReset s)
  else if e.stepEn then exec (decodeStep e.ports) s
  else .next s

/-- The machine's step: the next edge the environment presents; with none pending, nothing changes (R20, R231;
log entries 1, 2). -/
def runNextEdge (s : State) : Host.Outcome State Fault Refusal :=
  match takeEdge s with
  | some (e, s') => clockEdge e s'
  | none => .next s

/-- The placing of a table word (log entry 9): a frame is placed so that the next step completes it, a step word
so that the next edge presents it. -/
def placeTableWord (s : State) (nbits w : Nat) : State :=
  if nbits = 112 then presentFrame (frameOfTableWord w) s else presentStep (portsOfTableWord w) s

end Sys2Proof.Machine
end

