-- ==== Sys2Proof/Machine/Step.lean ====
section
/-! DEFINITION. The step function, and the host's placing of a table word before it. -/

namespace Sys2Proof.Machine

/-- One step of the machine: one clock edge with the ports the environment presents. -/
def step (s : State) : Host.Outcome State Fault Refusal := runNextEdge s

/-- The state whose next step runs the table word (log entry 9). -/
def State.withFetchWord (s : State) (nbits w : Nat) : State := placeTableWord s nbits w

end Sys2Proof.Machine
end

