-- ==== Sys2Proof/Machine/Reader.lean ====
section
/-! DEFINITION. The second party, the reader of the State Store (spec/20_memory.md R62, R63; spec/60_exceptions.md
R229): what it samples over time. It only reads, so it is a function of the block's run and no state of the block. -/

namespace Sys2Proof.Machine

/-- One read of a reader: the clock edges it lets pass first, and the entry it then samples (R63; log entry 19). -/
structure TimedRead where
  wait : Nat
  unit : Byte
  name : FieldName
deriving DecidableEq, Repr

/-- What one read shows: `st_valid` and the entry's value output at that moment, and nothing else. The read port has
no strobe, no age and no sequence number (R63; spec/43_state_store.md R171, R172). -/
structure Sample where
  stValid : Bool
  value : Option FieldValue
deriving DecidableEq, Repr

/-- A read of the port between two steps: the current value, without effect and without a latch (R60, R171). -/
def State.sampleEntry (s : State) (unit : Byte) (name : FieldName) : Sample := ⟨s.stValid, s.readStore unit name⟩

/-- The block after `n` more clock edges, which no reader delays or alters (R60, R62). A step always answers a next
state (spec/00_scope.md R13), so the other arm is never taken. -/
def afterEdges : Nat → State → State
  | 0, s => s
  | n + 1, s =>
    match step s with
    | .next t => afterEdges n t
    | _ => s

/-- All that a reader sees: its samples in turn, each taken from the block as it then stands. Reads between the same
two steps see one snapshot, and reads at different times may see different frames (R63;
spec/70_reset_and_hazards.md R256). -/
def readerSamples : List TimedRead → State → List Sample
  | [], _ => []
  | r :: rs, s =>
    (afterEdges r.wait s).sampleEntry r.unit r.name :: readerSamples rs (afterEdges r.wait s)

/-- Reads of one unit's entries with no clock edge between them: the reader's way to a consistent set (R63). -/
def readsAtOnce (unit : Byte) (names : List FieldName) : List TimedRead := names.map (fun n => ⟨0, unit, n⟩)

end Sys2Proof.Machine
end

