-- ==== Sys2Proof/Safety.lean ====
section
/-! DEFINITION. What a safe state and a safe run are: the invariants of spec/10_state.md R34 to R36, the shapes of
the log output (spec/43_state_store.md R178, R180), the ranges of the store (R30), and a step that does not stop
(spec/00_scope.md R13). -/

namespace Sys2Proof.Machine

/-- R34 and R35: IDLE exactly when the buffer is empty; RECEIVING with 1 to 13 bytes, the first the start
sentinel. -/
abbrev State.SequencingOk (s : State) : Prop :=
  (s.fsm = .idle ↔ s.len = 0) ∧
  (s.fsm = .receiving → 1 ≤ s.len ∧ s.len ≤ 13 ∧ memRead s 0 = some Config.START)

/-- A record's data are the data of R178: the bytes of a timeout (1 to 13) and of an overrun (14) begin with the
start sentinel, an overrun does not end with the end sentinel (R207), and a checksum failure carries the
frame's two unequal values (R208). -/
def LogRecord.ok : LogRecord → Bool
  | .timeout bs => decide (1 ≤ bs.length ∧ bs.length ≤ 13 ∧ bs[0]? = some Config.START)
  | .overrun bs => decide (bs.length = 14 ∧ bs[0]? = some Config.START ∧ bs[13]? ≠ some Config.END)
  | .checksumFail f computed received =>
      f.isCandidate && decide (computed = xorSum f ∧ received = f.checksum ∧ computed ≠ received)
  | .dump f => f.isCandidate

/-- The six shapes a step's log output can have (R180). -/
def logOk : List LogRecord → Bool
  | [] => true
  | [r] => r.ok
  | [.dump f, .checksumFail g computed received] =>
      decide (f = g) && (LogRecord.checksumFail g computed received).ok
  | _ => false

/-- A temperature register is in the range -55 to +72 (R30). -/
abbrev tempInRange (t : Temp) : Prop := -55 ≤ t.toInt ∧ t.toInt ≤ 72

/-- The three temperature registers are in range (R30). -/
abbrev StoreFields.InRange (v : StoreFields) : Prop :=
  tempInRange v.setTemperature ∧ tempInRange v.roomTemperature ∧ tempInRange v.pipeInTemperature

/-- The registers of a store that holds values are in range. -/
def storeOk : Option StoreFields → Bool
  | none => true
  | some v => decide v.InRange

/-- The invariant that holds between steps. -/
abbrev State.Inv (s : State) : Prop :=
  s.SequencingOk ∧ logOk s.log = true ∧ storeOk s.store = true

/-- R82's table: when a sub-operation of BYTE is selected, by the sequencing state at the byte phase and the byte.
The lengths that no run reaches fall as R100's listing says (log entry 17). -/
abbrev ByteOp.Selected (op : ByteOp) (b : Byte) (s : State) : Prop :=
  match op with
  | .idleStart => s.fsm = .idle ∧ b = Config.START
  | .idleNoise => s.fsm = .idle ∧ b ≠ Config.START
  | .recvFill => s.fsm = .receiving ∧ s.len ≤ 12
  | .recvEnd => s.fsm = .receiving ∧ s.len = 13 ∧ b = Config.END
  | .recvOverrun => s.fsm = .receiving ∧ 13 ≤ s.len ∧ ¬(s.len = 13 ∧ b = Config.END)

/-- The timeout condition of a step at clock reading `now` (R103). -/
abbrev State.late (s : State) (now : Time) : Prop :=
  s.fsm = .receiving ∧ 500 ≤ (now - s.tLast).toNat

/-- An edge with its debug level forgotten. -/
def Edge.withoutDbg (e : Edge) : Edge := { e with ports := { e.ports with dbg := false } }

/-- A state with its dump records and its environment's debug levels forgotten (R182). -/
def State.withoutDbg (s : State) : State :=
  { s with
    log := s.log.filter (fun r => !r.isDump)
    inputs := s.inputs.map Edge.withoutDbg }

/-- A run of `n` steps from `s` ends in `t`. -/
def RunsTo (n : Nat) (s t : State) : Prop := Sys2Proof.core.run n s = .next t

end Sys2Proof.Machine
end

