-- ==== Sys2Proof/Certificates/Slice0/Obligations.lean ====
section
/-! DEFINITION. The statements for the provers. Each docstring says which rule of spec/ it formalises; constants are
written as the spec's literals, not as the model's names for them. -/

open Sys2Proof Sys2Proof.Machine

/-- Decode and encode agree for every well-formed instruction (30_encoding.md sections 1 and 2 (R71, R72, R82, R83, R96)). -/
def Obligations.DecodeOfEncodeIsTheInstruction : Prop :=
  (∀ i : Instr, ∃ level, appliesAt i level = true) ∧
  ∀ (i : Instr) (level : DecodeLevel), wellFormed i = true → appliesAt i level = true →
    decode level (encode i) = .ok i

/-- What the decoders accept is well formed and encodes back (30_encoding.md sections 1 and 2 (R70, R71, R72, R82, R83)). -/
def Obligations.DecodedFormsAreWellFormedAndCanonical : Prop :=
  ∀ (level : DecodeLevel) (e : Encoded) (i : Instr),
    (∀ fsm len, level = .bytePhase fsm len → len ≤ 13) → decode level e = .ok i →
      wellFormed i = true ∧ appliesAt i level = true ∧
      (∀ f, e = .frame f → encode i = .frame f) ∧
      (∀ p, e = .word p → level = .step → p.rxValid = true → encode i = .word p) ∧
      (∀ p, e = .word p → level = .step → p.rxValid = false → encode i = .word ⟨p.now, 0, false⟩)

/-- No step word is illegal: all 512 words and all operands run in every state (R90). -/
def Obligations.EveryStepWordIsAcceptedInEveryState : Prop :=
  ∀ (w : StepWord) (now : Time) (dbg : Bool) (s : State), ∃ t, exec (decodeStep ⟨now, w, dbg⟩) s = .next t

/-- The frame decoder accepts exactly the valid frames, and the key selects the operation (30_encoding.md section 2 (R73, R83); 42_frame_decoder.md section 1 (R140, R142)). -/
def Obligations.FrameDecoderAcceptsExactlyTheValidFrames : Prop :=
  ∀ f : Frame,
    (f.start ≠ 0x32 → decodeFrame f = .error .badStart) ∧
    (f.start = 0x32 → f.endByte ≠ 0x34 → decodeFrame f = .error .badEnd) ∧
    (f.start = 0x32 → f.endByte = 0x34 → xorSum f ≠ f.checksum → decodeFrame f = .error .badChecksum) ∧
    (f.start = 0x32 → f.endByte = 0x34 → xorSum f = f.checksum →
      (f.source = 0x20 ∧ f.destination = 0x84 ∧ f.command = 0x52 → decodeFrame f = .ok (.frameStatus52 f.payload)) ∧
      (¬(f.source = 0x20 ∧ f.destination = 0x84 ∧ f.command = 0x52) →
        decodeFrame f = .ok (.frameUnrecognised f.source f.destination f.command f.payload)))

/-- The step decoder gives the row that the opcode table's match and mask give (30_encoding.md sections 1 and 7 (R82, R96)). -/
def Obligations.StepDecoderAgreesWithTheOpcodeTable : Prop :=
  ∀ (level : DecodeLevel) (p : StepPorts),
    (level = .step ∨ level = .bytePhase .idle 0 ∨ ∃ n, 1 ≤ n ∧ n ≤ 13 ∧ level = .bytePhase .receiving n) →
      (∀ i, decode level (.word p) = .ok i → tableLookup level p.word = some i.mnemonic) ∧
      (∀ r, decode level (.word p) = .error r → tableLookup level p.word = none)

/-- Words written out from the encoding tables decode to their instructions (30_encoding.md sections 1 and 2 (R71, R72, R82, R83); 95_test_vectors.md P1, T-DEC-9).
In its two `decodeTableWord` clauses the clock reading 0 and the debug level 0 are the model's choice (log entry 9). -/
def Obligations.SampleWordsDecodeAsTheEncodingTablesSay : Prop :=
  decodeTableWord 16 0x000 = some (.tick 0) ∧
  decodeTableWord 16 0x14F = some (.byte 0 0x4F false) ∧
  decode (.bytePhase .idle 0) (.word ⟨7, 0b100110010, true⟩) = .ok .byteIdleStart ∧
  decode (.bytePhase .idle 0) (.word ⟨7, 0b100110100, true⟩) = .ok (.byteIdleNoise 0x34) ∧
  decode (.bytePhase .receiving 12) (.word ⟨7, 0b100110100, true⟩) = .ok (.byteRecvFill 0x34) ∧
  decode (.bytePhase .receiving 13) (.word ⟨7, 0b100110100, true⟩) = .ok (.byteRecvEnd true) ∧
  decode (.bytePhase .receiving 13) (.word ⟨7, 0b111111111, true⟩) = .ok (.byteRecvOverrun 0xFF) ∧
  decodeFrameBytes [0x32, 0x20, 0x84, 0x52, 0x4F, 0x4D, 0x2D, 0xFA, 0x8B, 0x11, 0x22, 0x33, 0xA8, 0x34] =
    .ok (.frameStatus52 ⟨0x4F, 0x4D, 0x2D, 0xFA, 0x8B, 0x11, 0x22, 0x33⟩) ∧
  decodeFrameBytes [0x32, 0x21, 0x84, 0x52, 0x00, 0x00, 0x00, 0xFF, 0xFF, 0x00, 0x00, 0x00, 0xF7, 0x34] =
    .ok (.frameUnrecognised 0x21 0x84 0x52 ⟨0x00, 0x00, 0x00, 0xFF, 0xFF, 0x00, 0x00, 0x00⟩)

/-- The 112-bit word and the fourteen bytes of a frame determine each other (30_encoding.md section 2 (R72, R74)). -/
def Obligations.FrameWordAndBytesAgree : Prop :=
  ∀ f : Frame,
    (∀ k, k < 14 → f.toBytes[k]? = some (f.toWord.extractLsb' (104 - 8 * k) 8)) ∧
    Frame.ofWord f.toWord = f ∧
    (∀ bs : List Byte, Frame.ofBytes? bs = some f ↔ bs = f.toBytes) ∧
    (∀ i, i < 8 → f.toBytes[4 + i]? =
      [f.payload.p0, f.payload.p1, f.payload.p2, f.payload.p3,
       f.payload.p4, f.payload.p5, f.payload.p6, f.payload.p7][i]?)

/-- XorSum is the exclusive-or of offsets 1 to 11 and of nothing else (R130). -/
def Obligations.XorSumCoversOffsetsOneToEleven : Prop :=
  (∀ f : Frame,
      xorSum f = f.source ^^^ f.destination ^^^ f.command ^^^ f.payload.p0 ^^^ f.payload.p1 ^^^ f.payload.p2 ^^^
        f.payload.p3 ^^^ f.payload.p4 ^^^ f.payload.p5 ^^^ f.payload.p6 ^^^ f.payload.p7) ∧
  (∀ f g : Frame, List.Perm ((f.toBytes.drop 1).take 11) ((g.toBytes.drop 1).take 11) → xorSum f = xorSum g) ∧
  (∀ (f : Frame) (v : Byte), (f.toBytes.drop 1).take 11 = List.replicate 11 v → xorSum f = v) ∧
  (∀ f : Frame,
      f.toBytes = [0x32, 0x20, 0x84, 0x52, 0x37, 0x37, 0x37, 0x00, 0x80, 0x00, 0x00, 0x00, 0x41, 0x34] →
      xorSum f = 0x41 ∧
      (f.covered.drop 1).scanl (· ^^^ ·) f.source =
        [0x20, 0xA4, 0xF6, 0xC1, 0xF6, 0xC1, 0xC1, 0x41, 0x41, 0x41, 0x41])

/-- Validate passes exactly on a matching checksum and a start sentinel, and reports the computed sum (R131; R133). -/
def Obligations.ValidateIsChecksumAndStartSentinel : Prop :=
  (∀ f : Frame,
      ((validate f).1 = true ↔ xorSum f = f.checksum ∧ f.start = 0x32) ∧ (validate f).2 = xorSum f ∧
      ∀ e, validate { f with endByte := e } = validate f) ∧
  (∀ f : Frame,
      f.toBytes = [0x32, 0x20, 0x84, 0x52, 0x37, 0x37, 0x37, 0x00, 0x80, 0x00, 0x00, 0x00, 0x41, 0x34] →
      validate f = (true, 0x41) ∧ validate { f with checksum := 0xBE } = (false, 0x41))

/-- One altered byte is always detected; alterations that cancel never are (41_checksum_validator.md R136 (derived there from 30_encoding.md R84)). -/
def Obligations.ValidateDetectsEverySingleByteError : Prop :=
  ∀ f g : Frame, (validate f).1 = true →
    (∀ (k : Nat) (v : Byte), 1 ≤ k → k ≤ 12 → f.toBytes[k]? ≠ some v → g.toBytes = f.toBytes.set k v →
      (validate g).1 = false) ∧
    (g.start = 0x32 →
      (List.zipWith (· ^^^ ·) ((f.toBytes.drop 1).take 12) ((g.toBytes.drop 1).take 12)).foldl (· ^^^ ·) 0 = 0 →
      (validate g).1 = true)

/-- FRAME.STATUS52 writes the seven registers and the valid flag from the frame, and nothing else (R141). -/
def Obligations.Status52WritesTheSevenRegisters : Prop :=
  (∀ (f : Frame), f.start = 0x32 → f.endByte = 0x34 → xorSum f = f.checksum →
      f.source = 0x20 → f.destination = 0x84 → f.command = 0x52 →
      decodeFrame f = .ok (.frameStatus52 f.payload)) ∧
  (∀ (p : Payload) (s : State),
      exec (.frameStatus52 p) s = .next { s with
        store := some
          { setTemperature := BitVec.ofInt 8 (((p.p0 &&& 0x7F).toNat : Int) - 55)
            roomTemperature := BitVec.ofInt 8 (((p.p1 &&& 0x7F).toNat : Int) - 55)
            pipeInTemperature := BitVec.ofInt 8 (((p.p2 &&& 0x7F).toNat : Int) - 55)
            fanSpeed := p.p3.extractLsb' 0 3
            bladeSwing := decide (p.p3 &&& 0xF8 = 0xF8)
            powerOn := p.p4.getLsbD 7
            remoteControlSource := p.p4.extractLsb' 0 4 } }) ∧
  (∀ s : State,
      exec (.frameStatus52 ⟨0x37, 0x37, 0x37, 0x00, 0x80, 0x00, 0x00, 0x00⟩) s =
        .next { s with store := some ⟨0, 0, 0, 0, false, true, 0⟩ })

/-- The three temperature registers hold the 7-bit raw value less 55, in range, bit 7 ignored (R144; R145; R146). -/
def Obligations.TemperatureRegistersHoldRawLess55 : Prop :=
  (∀ (p : Payload) (s : State), ∃ t v, exec (.frameStatus52 p) s = .next t ∧ t.store = some v ∧
      v.setTemperature.toInt = ((p.p0 &&& 0x7F).toNat : Int) - 55 ∧
      v.roomTemperature.toInt = ((p.p1 &&& 0x7F).toNat : Int) - 55 ∧
      v.pipeInTemperature.toInt = ((p.p2 &&& 0x7F).toNat : Int) - 55 ∧
      (-55 ≤ v.setTemperature.toInt ∧ v.setTemperature.toInt ≤ 72) ∧
      (-55 ≤ v.roomTemperature.toInt ∧ v.roomTemperature.toInt ≤ 72) ∧
      (-55 ≤ v.pipeInTemperature.toInt ∧ v.pipeInTemperature.toInt ≤ 72)) ∧
  (∀ (p : Payload) (s : State),
      exec (.frameStatus52 { p with p0 := p.p0 ^^^ 0x80, p1 := p.p1 ^^^ 0x80, p2 := p.p2 ^^^ 0x80 }) s =
        exec (.frameStatus52 p) s) ∧
  (∀ b ∈ ([(0x00, -55), (0x80, -55), (0x7F, 72), (0xFF, 72), (0x37, 0), (0xB7, 0), (0x4F, 24), (0x4D, 22),
      (0x2D, -10)] : List (Byte × Int)),
    ∀ (p : Payload) (s t : State) (v : StoreFields), p.p0 = b.1 → p.p1 = b.1 → p.p2 = b.1 →
      exec (.frameStatus52 p) s = .next t → t.store = some v →
      v.setTemperature.toInt = b.2 ∧ v.roomTemperature.toInt = b.2 ∧ v.pipeInTemperature.toInt = b.2)

/-- fan_speed is bits 2:0 and blade_swing is all of bits 7:3, for every payload byte 3 (R147; R148). -/
def Obligations.FanSpeedAndBladeSwingFields : Prop :=
  ∀ (p : Payload) (s : State), ∃ t v, exec (.frameStatus52 p) s = .next t ∧ t.store = some v ∧
    v.fanSpeed.toNat = p.p3.toNat % 8 ∧
    (v.bladeSwing = true ↔ p.p3 &&& 0xF8 = 0xF8) ∧
    (v.bladeSwing = true ↔ 0xF8 ≤ p.p3.toNat) ∧
    (p.p3 = 0xFA → v.fanSpeed = 2 ∧ v.bladeSwing = true) ∧
    (p.p3 = 0x7A → v.bladeSwing = false) ∧ (p.p3 = 0x00 → v.bladeSwing = false)

/-- power_on is bit 7 and remote_control_source is bits 3:0 of payload byte 4 (R149; R150). -/
def Obligations.PowerAndControlSourceFields : Prop :=
  (∀ (p : Payload) (s : State), ∃ t v, exec (.frameStatus52 p) s = .next t ∧ t.store = some v ∧
      v.powerOn = p.p4.getLsbD 7 ∧ (v.powerOn = true ↔ p.p4 &&& 0x80 = 0x80) ∧
      v.remoteControlSource.toNat = p.p4.toNat % 16 ∧
      (p.p4 = 0x80 → v.powerOn = true) ∧ (p.p4 = 0x7F → v.powerOn = false) ∧
      (p.p4 = 0x8B → v.powerOn = true ∧ v.remoteControlSource = 0xB)) ∧
  (∀ (p : Payload) (s : State) (m : Byte),
      exec (.frameStatus52 { p with p4 := p.p4 ^^^ (m &&& 0x70) }) s = exec (.frameStatus52 p) s)

/-- Two fields of one byte do not affect each other, and unread bytes affect nothing (42_frame_decoder.md R157; 30_encoding.md R75, R79). -/
def Obligations.FieldsOfOneByteAreIndependent : Prop :=
  ∀ (p q : Payload) (s t u : State) (v w : StoreFields),
    exec (.frameStatus52 p) s = .next t → t.store = some v →
    exec (.frameStatus52 q) s = .next u → u.store = some w →
    (p.p3 &&& 0x07 = q.p3 &&& 0x07 → v.fanSpeed = w.fanSpeed) ∧
    (p.p3 &&& 0xF8 = q.p3 &&& 0xF8 → v.bladeSwing = w.bladeSwing) ∧
    (p.p4 &&& 0x80 = q.p4 &&& 0x80 → v.powerOn = w.powerOn) ∧
    (p.p4 &&& 0x0F = q.p4 &&& 0x0F → v.remoteControlSource = w.remoteControlSource) ∧
    (p.p0 = q.p0 → p.p1 = q.p1 → p.p2 = q.p2 → p.p3 = q.p3 → p.p4 = q.p4 → t = u)

/-- TempDecode is exact subtraction of 55 on a 7-bit value (R85). -/
def Obligations.TempDecodeIsExact : Prop :=
  ∀ r : BitVec 7,
    (tempDecode r).toInt = (r.toNat : Int) - 55 ∧ -55 ≤ (tempDecode r).toInt ∧ (tempDecode r).toInt ≤ 72 ∧
    tempDecode r = r.setWidth 8 + 0xC9

/-- A valid frame with any other key is a no-op (R142; R143). -/
def Obligations.UnrecognisedFrameChangesNothing : Prop :=
  ∀ f : Frame, f.start = 0x32 → f.endByte = 0x34 → xorSum f = f.checksum →
    ¬(f.source = 0x20 ∧ f.destination = 0x84 ∧ f.command = 0x52) →
    decodeFrame f = .ok (.frameUnrecognised f.source f.destination f.command f.payload) ∧
    (∀ s : State, exec (.frameUnrecognised f.source f.destination f.command f.payload) s = .next s) ∧
    (∀ (s : State) (now : Time) (dbg : Bool), s.fsm = .receiving → s.buf ++ [0x34] = f.toBytes → ¬ s.late now →
      exec (.byte now 0x34 dbg) s = .next { s with
        fsm := .idle, buf := [], tLast := now, log := if dbg then [.dump f] else [] })

/-- TICK always completes, and is the timeout phase and nothing else (40_reassembler.md sections 2 and 3 (R103, R104, R105, R106)). -/
def Obligations.TickIsTheTimeoutPhaseAlone : Prop :=
  ∀ (now : Time) (s : State),
    (s.late now → exec (.tick now) s = .next { s with fsm := .idle, buf := [], log := [.timeout s.buf] }) ∧
    (¬ s.late now → exec (.tick now) s = .next { s with log := [] })

/-- BYTE always completes: the common part, then exactly one sub-operation (40_reassembler.md section 4 (R107, R116); 30_encoding.md section 1 (R82)). -/
def Obligations.ByteRunsExactlyOneSubOperation : Prop :=
  ∀ (now : Time) (b : Byte) (dbg : Bool) (s : State),
    (s.late now →
      byteCommon now s = { s with fsm := .idle, buf := [], tLast := now, log := [.timeout s.buf] }) ∧
    (¬ s.late now → byteCommon now s = { s with tLast := now, log := [] }) ∧
    ∃ op t, ByteOp.Selected op b (byteCommon now s) ∧
      (∀ op', ByteOp.Selected op' b (byteCommon now s) → op' = op) ∧
      exec (.byte now b dbg) s = exec (op.toInstr b dbg) (byteCommon now s) ∧
      exec (.byte now b dbg) s = .next t ∧ t.tLast = now ∧ t.inputs = s.inputs

/-- A late byte never reaches the stale buffer: the timeout phase runs first, then the byte in IDLE (R102). -/
def Obligations.LateByteIsProcessedInIdle : Prop :=
  (∀ (now : Time) (b : Byte) (dbg : Bool) (s u : State), exec (.tick now) s = .next u →
      exec (.byte now b dbg) s = bytePhase b dbg { u with tLast := now }) ∧
  (∀ (now : Time) (b : Byte) (dbg : Bool) (s : State), s.late now →
      exec (.byte now b dbg) s = .next
        (if b = 0x32 then
          { s with fsm := .receiving, buf := [0x32], tLast := now, log := [.timeout s.buf] }
        else { s with fsm := .idle, buf := [], tLast := now, log := [.timeout s.buf] }))

/-- BYTE.IDLE.START opens a one-byte buffer, whatever preceded (R108). -/
def Obligations.StartSentinelOpensTheBuffer : Prop :=
  (∀ s : State, s.fsm = .idle → exec .byteIdleStart s = .next { s with fsm := .receiving, buf := [0x32] }) ∧
  (∀ (s : State) (now : Time) (dbg : Bool), s.fsm = .idle →
      exec (.byte now 0x32 dbg) s = .next { s with fsm := .receiving, buf := [0x32], tLast := now, log := [] }) ∧
  (∀ (s : State) (now : Time) (dbg : Bool), s.late now →
      exec (.byte now 0x32 dbg) s = .next { s with
        fsm := .receiving, buf := [0x32], tLast := now, log := [.timeout s.buf] }) ∧
  (∀ rest : List Edge, ∃ t,
      step { State.reset with inputs := byteEdge 7 false 0x32 :: rest } = .next t ∧
      t.fsm = .receiving ∧ t.len = 1 ∧ memRead t 0 = some 0x32 ∧ t.tLast = 7 ∧ t.log = [])

/-- BYTE.IDLE.NOISE discards the byte; any run of noise leaves IDLE with an empty buffer (R109). -/
def Obligations.NoiseInIdleIsDiscarded : Prop :=
  (∀ (s : State) (b : Byte), s.fsm = .idle → b ≠ 0x32 → exec (.byteIdleNoise b) s = .next s) ∧
  (∀ (s : State) (now : Time) (b : Byte) (dbg : Bool), s.fsm = .idle → b ≠ 0x32 →
      exec (.byte now b dbg) s = .next { s with tLast := now, log := [] }) ∧
  (∀ (s : State) (now : Time) (dbg : Bool) (noise : List Byte) (rest : List Edge), s.fsm = .idle → s.buf = [] →
      noise ≠ [] → (∀ b ∈ noise, b ≠ 0x32) →
      RunsTo noise.length { s with inputs := batch now dbg noise ++ rest }
        { s with tLast := now, log := [], inputs := rest })

/-- BYTE.RECV.FILL appends the byte, whatever it is, and does nothing else (R111). -/
def Obligations.FillAppendsWhateverTheByte : Prop :=
  (∀ (s : State) (b : Byte), s.fsm = .receiving → 1 ≤ s.len → s.len ≤ 12 →
      exec (.byteRecvFill b) s = .next { s with buf := s.buf ++ [b] }) ∧
  (∀ (s : State) (now : Time) (b : Byte) (dbg : Bool), s.fsm = .receiving → 1 ≤ s.len → s.len ≤ 12 →
      ¬ s.late now →
      exec (.byte now b dbg) s = .next { s with buf := s.buf ++ [b], tLast := now, log := [] }) ∧
  (∀ (s : State) (rest : List Edge), s.fsm = .receiving → s.buf = [0x32] → s.tLast = 0 →
      RunsTo 3 { s with inputs := batch 0 false [0x20, 0x84, 0x52] ++ rest }
        { s with buf := [0x32, 0x20, 0x84, 0x52], log := [], inputs := rest })

/-- Inside a frame every byte is data up to the thirteenth, sentinels included (R112). -/
def Obligations.SentinelsInsideAFrameAreData : Prop :=
  (∀ (s : State) (now : Time) (dbg : Bool) (bs : List Byte) (rest : List Edge), s.fsm = .receiving → 1 ≤ s.len →
      s.len + bs.length ≤ 13 → ¬ s.late now → bs ≠ [] →
      RunsTo bs.length { s with inputs := batch now dbg bs ++ rest }
        { s with buf := s.buf ++ bs, tLast := now, log := [], inputs := rest }) ∧
  (∃ t, RunsTo 12
      { State.reset with
        inputs := batch 0 false [0x32, 0x32, 0x34, 0x32, 0x34, 0x00, 0x00, 0x00, 0x00, 0x00, 0x00, 0x00] } t ∧
    t.fsm = .receiving ∧ t.len = 12 ∧
    t.buf = [0x32, 0x32, 0x34, 0x32, 0x34, 0x00, 0x00, 0x00, 0x00, 0x00, 0x00, 0x00])

/-- BYTE.RECV.END clears the buffer, goes to IDLE and emits the frame, whatever Validate finds (R113). -/
def Obligations.EndSentinelCompletesTheFrame : Prop :=
  (∀ (s : State) (dbg : Bool), s.fsm = .receiving → s.len = 13 → ∃ f : Frame, s.buf ++ [0x34] = f.toBytes ∧
      f.endByte = 0x34 ∧ (s.SequencingOk → f.start = 0x32) ∧
      exec (.byteRecvEnd dbg) s = .next { s with
        fsm := .idle, buf := []
        log := s.log ++ (if dbg then [.dump f] else []) ++
          (if xorSum f = f.checksum ∧ f.start = 0x32 then [] else [.checksumFail f (xorSum f) f.checksum])
        store :=
          if (xorSum f = f.checksum ∧ f.start = 0x32) ∧ f.source = 0x20 ∧ f.destination = 0x84 ∧ f.command = 0x52
          then some (decodedFields f.payload) else s.store } ∧
      ∀ now, ¬ s.late now →
        exec (.byte now 0x34 dbg) s = exec (.byteRecvEnd dbg) { s with tLast := now, log := [] }) ∧
  (∃ t, RunsTo 14
      { State.reset with
        inputs := batch 0 false
          [0x32, 0x20, 0x84, 0x52, 0x37, 0x37, 0x37, 0x00, 0x80, 0x00, 0x00, 0x00, 0x41, 0x34] } t ∧
    t.fsm = .idle ∧ t.len = 0 ∧ t.log = [] ∧ t.store = some ⟨0, 0, 0, 0, false, true, 0⟩)

/-- BYTE.RECV.OVERRUN logs all fourteen bytes and discards them, a start sentinel included (R114). -/
def Obligations.OverrunDiscardsAllFourteenBytes : Prop :=
  (∀ (s : State) (b : Byte), s.fsm = .receiving → s.len = 13 → b ≠ 0x34 →
      exec (.byteRecvOverrun b) s = .next { s with
        fsm := .idle, buf := [], log := s.log ++ [.overrun (s.buf ++ [b])] }) ∧
  (∀ (s : State) (now : Time) (b : Byte) (dbg : Bool), s.fsm = .receiving → s.len = 13 → b ≠ 0x34 → ¬ s.late now →
      exec (.byte now b dbg) s = .next { s with
        fsm := .idle, buf := [], tLast := now, log := [.overrun (s.buf ++ [b])] }) ∧
  (∃ t, RunsTo 14
      { State.reset with
        inputs := batch 0 false
          [0x32, 0x01, 0x02, 0x03, 0x04, 0x05, 0x06, 0x07, 0x08, 0x09, 0x0A, 0x0B, 0x0C, 0x0D] } t ∧
    t.fsm = .idle ∧ t.len = 0 ∧
    t.log = [.overrun [0x32, 0x01, 0x02, 0x03, 0x04, 0x05, 0x06, 0x07, 0x08, 0x09, 0x0A, 0x0B, 0x0C, 0x0D]])

/-- After a checksum failure the state is what an unrecognised frame leaves; only the log differs (R135). -/
def Obligations.ChecksumFailureLeavesNoTraceButTheLog : Prop :=
  (∀ (s : State) (f g : Frame) (now : Time) (dbg : Bool), s.fsm = .receiving → ¬ s.late now →
      f.endByte = 0x34 → g.endByte = 0x34 → (validate f).1 = false → (validate g).1 = true →
      ¬(g.source = 0x20 ∧ g.destination = 0x84 ∧ g.command = 0x52) →
      ∃ t u, exec (.byte now 0x34 dbg) { s with buf := f.toBytes.take 13 } = .next t ∧
        exec (.byte now 0x34 dbg) { s with buf := g.toBytes.take 13 } = .next u ∧
        { t with log := [] } = { u with log := [] } ∧
        t.fsm = .idle ∧ t.len = 0 ∧ t.tLast = now ∧ t.store = s.store ∧
        u.log = (if dbg then [.dump g] else []) ∧
        t.log = (if dbg then [.dump f] else []) ++ [.checksumFail f (xorSum f) f.checksum]) ∧
  (∃ t, RunsTo 14
      { State.reset with
        inputs := batch 0 false
          [0x32, 0x20, 0x84, 0x52, 0x37, 0x37, 0x37, 0x00, 0x80, 0x00, 0x00, 0x00, 0xBE, 0x34] } t ∧
    t.store = none ∧
    t.log = [.checksumFail
      ⟨0x32, 0x20, 0x84, 0x52, ⟨0x37, 0x37, 0x37, 0x00, 0x80, 0x00, 0x00, 0x00⟩, 0xBE, 0x34⟩ 0x41 0xBE])

/-- FSM moves exactly when the transition table says (40_reassembler.md section 5 (R118); 70_reset_and_hazards.md R240). -/
def Obligations.FsmMovesOnlyAsTheTransitionTable : Prop :=
  ∀ (s t : State) (e : Edge) (rest : List Edge), s.SequencingOk → s.inputs = e :: rest → step s = .next t →
    (s.fsm = .idle → (t.fsm = .receiving ↔
      e.rst = false ∧ e.stepEn = true ∧ e.ports.rxValid = true ∧ e.ports.rxData = 0x32)) ∧
    (s.fsm = .receiving → (t.fsm = .idle ↔
      e.rst = true ∨ (e.stepEn = true ∧
        ((s.late e.ports.now ∧ ¬(e.ports.rxValid = true ∧ e.ports.rxData = 0x32)) ∨
         (¬ s.late e.ports.now ∧ e.ports.rxValid = true ∧ s.len = 13)))))

/-- With less than 2^32 ms between readings, the timeout fires exactly at 500 ms or more, across a wrap (30_encoding.md R86; 40_reassembler.md R103, R120; 70_reset_and_hazards.md R254).
The clock width 32 is the model's choice (log entry 4), firing at exactly 500 the spec's (log entry 13). -/
def Obligations.TimeoutMeasuresTrueTimeAcrossWrap : Prop :=
  ∀ (a c : Nat) (s : State), a ≤ c → c < a + 2 ^ 32 → s.fsm = .receiving → s.tLast = BitVec.ofNat 32 a →
    ∃ t, exec (.tick (BitVec.ofNat 32 c)) s = .next t ∧
      (t.fsm = .idle ↔ 500 ≤ c - a) ∧ (t.log = [.timeout s.buf] ↔ 500 ≤ c - a) ∧ t.tLast = s.tLast

/-- After a BYTE step, no step at the same clock reading times out (40_reassembler.md R117 (derived there from R100, R103, R107)). -/
def Obligations.BatchNeverTimesOut : Prop :=
  ∀ (s t : State) (now : Time) (b : Byte) (dbg : Bool), exec (.byte now b dbg) s = .next t →
    ¬ t.late now ∧ exec (.tick now) t = .next { t with log := [] } ∧
    ∀ (b' : Byte) (dbg' : Bool), exec (.byte now b' dbg') t = bytePhase b' dbg' { t with log := [] }

/-- From RECEIVING the buffer is cleared within 13 further BYTE steps, or at the first late step (R119). -/
def Obligations.BufferIsClearedWithinThirteenBytes : Prop :=
  (∀ (s : State) (es rest : List Edge), s.SequencingOk → s.fsm = .receiving → s.inputs = es ++ rest →
      (∀ e ∈ es, e.rst = false ∧ e.stepEn = true) →
      14 - s.len ≤ (es.filter (fun e => e.ports.rxValid)).length →
      14 - s.len ≤ 13 ∧
      ∃ k t, 1 ≤ k ∧ k ≤ es.length ∧ RunsTo k s t ∧ (t.fsm = .idle ∨ ∃ bs, t.log = [.timeout bs])) ∧
  (∀ (s : State) (e : Edge) (rest : List Edge), s.inputs = e :: rest → e.rst = false → e.stepEn = true →
      s.late e.ports.now →
      ∃ t, step s = .next t ∧ t.log = [.timeout s.buf] ∧ (t.fsm = .idle ∧ t.buf = [] ∨ t.buf = [0x32]))

/-- Every step keeps the sequencing, log and store invariants (10_state.md section 3 (R34, R35, R36); 43_state_store.md R180; 10_state.md R30). -/
def Obligations.EveryStepKeepsTheInvariant : Prop :=
  ∀ s t : State, s.Inv → step s = .next t → t.Inv

/-- The reset state meets the invariant (10_state.md section 4 (R44)). -/
def Obligations.ResetStateMeetsTheInvariant : Prop :=
  ∀ inputs : List Edge, State.Inv { State.reset with inputs := inputs } ∧
    State.reset.fsm = .idle ∧ State.reset.len = 0 ∧ State.reset.stValid = false ∧
    (evPorts State.reset.log).code = 0 ∧ (evPorts State.reset.log).dump = false

/-- The buffer holds at most 14 bytes inside a step and at most 13 between steps (R36). -/
def Obligations.BufferNeverHoldsMoreThanFourteen : Prop :=
  ∀ (s t : State) (n : Nat), s.SequencingOk → RunsTo n s t →
    t.len ≤ 13 ∧ ∀ b, (appendByte b t).len ≤ 14

/-- No run ever faults, gets stuck or refuses: every state has its successor (R13). -/
def Obligations.NoRunFaultsOrRefuses : Prop :=
  ∀ (s : State) (n : Nat), ∃ t, RunsTo n s t

/-- The State Store changes exactly by reset and by a completed, valid, recognised frame (R38; R170). -/
def Obligations.StoreChangesOnlyByARecognisedFrame : Prop :=
  (∀ s t : State, step s = .next t → t.store ≠ s.store →
    ∃ e rest, s.inputs = e :: rest ∧
      ((e.rst = true ∧ t.store = none) ∨
       (e.rst = false ∧ e.stepEn = true ∧ e.ports.rxValid = true ∧ e.ports.rxData = 0x34 ∧
        s.fsm = .receiving ∧ ¬ s.late e.ports.now ∧
        ∃ f : Frame, s.buf ++ [0x34] = f.toBytes ∧ f.start = 0x32 ∧ xorSum f = f.checksum ∧
          f.source = 0x20 ∧ f.destination = 0x84 ∧ f.command = 0x52 ∧ t.store = some (decodedFields f.payload)))) ∧
  (∀ (s : State) (e : Edge) (rest : List Edge) (f : Frame), s.inputs = e :: rest → e.rst = false → e.stepEn = true →
    e.ports.rxValid = true → e.ports.rxData = 0x34 → s.fsm = .receiving → ¬ s.late e.ports.now →
    s.buf ++ [0x34] = f.toBytes → f.start = 0x32 → xorSum f = f.checksum →
    f.source = 0x20 → f.destination = 0x84 → f.command = 0x52 →
    ∃ t, step s = .next t ∧ t.store = some (decodedFields f.payload) ∧ t.stValid = true)

/-- The debug level changes nothing but Dump records, along every run (43_state_store.md R182 (derived there from R181, R29, R100)). -/
def Obligations.DebugLevelOnlyAddsDumps : Prop :=
  ∀ (n : Nat) (s s' t t' : State), s.withoutDbg = s'.withoutDbg → RunsTo n s t → RunsTo n s' t' →
    t.withoutDbg = t'.withoutDbg

/-- In IDLE the value of T_LAST is never observed, along every run (10_state.md R28, R45; 40_reassembler.md R107).
The value the model gives `T_LAST` at reset is its choice (log entry 5); this says that nothing rests on it. -/
def Obligations.TLastIsUnobservableInIdle : Prop :=
  ∀ (n : Nat) (s t t' : State) (v : Time), s.fsm = .idle → RunsTo n s t → RunsTo n { s with tLast := v } t' →
    t' = { t with tLast := t'.tLast } ∧ (t.fsm = .receiving → t' = t)

/-- A reset edge wins over the strobe and clears everything, without a record (70_reset_and_hazards.md section 1 (R240, R241); 10_state.md R44). -/
def Obligations.ResetEdgeWinsAndClears : Prop :=
  ∀ (s : State) (e : Edge) (rest : List Edge), s.inputs = e :: rest → e.rst = true →
    ∃ t, step s = .next t ∧ t.fsm = .idle ∧ t.len = 0 ∧ t.stValid = false ∧ t.log = [] ∧
      (evPorts t.log).code = 0 ∧ (evPorts t.log).dump = false ∧ t.inputs = rest

/-- With neither rst nor step_en nothing changes, and with no edge at all nothing changes (10_state.md R20).
That the log stays over an edge without a step is the model's inference (log entry 3), that nothing happens on no edge its choice
(log entry 2). -/
def Obligations.EdgeWithoutStepChangesNothing : Prop :=
  (∀ (s : State) (e : Edge) (rest : List Edge), s.inputs = e :: rest → e.rst = false → e.stepEn = false →
      step s = .next { s with inputs := rest }) ∧
  (∀ s : State, s.inputs = [] → step s = .next s)

/-- A step runs the instruction the step decoder reads from the edge's ports (40_reassembler.md section 1 (R100); 30_encoding.md R70, R71; 10_state.md R20).
The second clause speaks of the host's table words, whose placing is the model's choice (log entry 9). -/
def Obligations.StepRunsTheDecodedInstruction : Prop :=
  (∀ (s : State) (e : Edge) (rest : List Edge) (i : Instr), s.inputs = e :: rest → e.rst = false → e.stepEn = true →
      decode .step (.word e.ports) = .ok i → step s = exec i { s with inputs := rest }) ∧
  (∀ (s : State) (nbits w : Nat) (i : Instr), nbits ≠ 112 → decodeTableWord nbits w = some i →
      step (s.withFetchWord nbits w) = exec i s)

/-- The step that completes a valid frame runs the instruction the frame decoder reads from it (41_checksum_validator.md R134; 42_frame_decoder.md R140).
The second clause speaks of the host's table words, whose placing is the model's choice (log entries 9, 10). -/
def Obligations.CompletingStepRunsTheDecodedFrame : Prop :=
  (∀ (s : State) (f : Frame) (dbg : Bool) (i : Instr), s.fsm = .receiving → s.buf ++ [0x34] = f.toBytes →
      decodeFrame f = .ok i →
      exec (.byteRecvEnd dbg) s = exec i { s with
        fsm := .idle, buf := [], log := s.log ++ (if dbg then [.dump f] else []) }) ∧
  (∀ (s : State) (w : Nat) (i : Instr), decodeTableWord 112 w = some i →
      step (s.withFetchWord 112 w) = exec i { s with fsm := .idle, buf := [], tLast := 0, log := [] })

/-- A step's log is one of six, with the data of the buffer and the byte (43_state_store.md R178, R180, R181; 60_exceptions.md R206, R207, R208, R212). -/
def Obligations.LogHasOneOfSixShapes : Prop :=
  ∀ (s t : State) (now : Time) (b : Byte) (dbg : Bool), s.SequencingOk →
    (exec (.tick now) s = .next t → t.log = [] ∨ (t.log = [.timeout s.buf] ∧ s.late now)) ∧
    (exec (.byte now b dbg) s = .next t →
      t.log = [] ∨ (t.log = [.timeout s.buf] ∧ s.late now) ∨
      (t.log = [.overrun (s.buf ++ [b])] ∧ s.len = 13 ∧ b ≠ 0x34 ∧ memRead s 0 = some 0x32) ∨
      ∃ f : Frame, f.toBytes = s.buf ++ [b] ∧ f.start = 0x32 ∧ f.endByte = 0x34 ∧
        ((dbg = false ∧ t.log = [.checksumFail f (xorSum f) f.checksum] ∧ xorSum f ≠ f.checksum) ∨
         (dbg = true ∧ t.log = [.dump f] ∧ xorSum f = f.checksum) ∨
         (dbg = true ∧ t.log = [.dump f, .checksumFail f (xorSum f) f.checksum] ∧ xorSum f ≠ f.checksum)))

/-- The ev ports encode the six shapes of the log (43_state_store.md R179; 60_exceptions.md R203).
That open entries of the ports are absent, and the length 0 of an empty log, are the model's (log entries 11, 12). -/
def Obligations.EventPortsEncodeTheLog : Prop :=
  evPorts [] = ⟨0, false, 0, [], none⟩ ∧
  (∀ bs : List Byte, bs.length ≤ 13 → evPorts [.timeout bs] = ⟨1, false, BitVec.ofNat 4 bs.length, bs, none⟩) ∧
  (∀ bs : List Byte, bs.length = 14 → evPorts [.overrun bs] = ⟨2, false, 14, bs, none⟩) ∧
  (∀ (f : Frame) (c r : Byte), evPorts [.checksumFail f c r] = ⟨3, false, 14, f.toBytes, some (c, r)⟩) ∧
  (∀ f : Frame, evPorts [.dump f] = ⟨0, true, 14, f.toBytes, none⟩) ∧
  (∀ (f : Frame) (c r : Byte), evPorts [.dump f, .checksumFail f c r] = ⟨3, true, 14, f.toBytes, some (c, r)⟩)

/-- Raising each of the five conditions does what the entry table says, and nothing else (60_exceptions.md R203, R213). -/
def Obligations.ConditionEntryActions : Prop :=
  ∀ (s : State) (f : Frame) (c r : Byte),
    raise .framing s = s ∧ raise .unrecognisedKey s = s ∧
    raise .timeout s = { s with fsm := .idle, buf := [], log := s.log ++ [.timeout s.buf] } ∧
    raise .overrun s = { s with fsm := .idle, buf := [], log := s.log ++ [.overrun s.buf] } ∧
    raise (.checksumFailure f c r) s = { s with log := s.log ++ [.checksumFail f c r] } ∧
    Condition.code .framing = 0 ∧ Condition.code .timeout = 1 ∧ Condition.code .overrun = 2 ∧
    Condition.code (.checksumFailure f c r) = 3 ∧ Condition.code .unrecognisedKey = 0

/-- After a warning the block is in IDLE, discards noise, and resumes at the next start sentinel (60_exceptions.md section 5 (R215)). -/
def Obligations.RecoveryAfterACondition : Prop :=
  ∀ (s t : State) (now : Time) (b : Byte) (dbg : Bool), s.SequencingOk →
    ((exec (.tick now) s = .next t ∧ t.log ≠ []) ∨
     (exec (.byte now b dbg) s = .next t ∧ ¬ s.late now ∧ ∃ r ∈ t.log, r.code ≠ 0)) →
    t.fsm = .idle ∧ t.buf = [] ∧ t.store = s.store ∧
    ∀ (noise : List Byte) (now' : Time) (dbg' : Bool) (rest : List Edge), (∀ x ∈ noise, x ≠ 0x32) →
      RunsTo (noise.length + 1) { t with inputs := batch now' dbg' (noise ++ [0x32]) ++ rest }
        { t with fsm := .receiving, buf := [0x32], tLast := now', log := [], inputs := rest }

/-- The model's choice: an operation the decoders do not select is refused by name (30_encoding.md section 1 (R82); notes/assumptions/8.md). -/
def Obligations.SubOperationsRefuseWhenNotSelected : Prop :=
  ∀ (s : State) (b : Byte) (dbg : Bool),
    (s.fsm = .receiving → exec .byteIdleStart s = .refused .notSelected) ∧
    (¬(s.fsm = .idle ∧ b ≠ 0x32) → exec (.byteIdleNoise b) s = .refused .notSelected) ∧
    (¬(s.fsm = .receiving ∧ s.len ≤ 12) → exec (.byteRecvFill b) s = .refused .notSelected) ∧
    (¬(s.fsm = .receiving ∧ s.len = 13) → exec (.byteRecvEnd dbg) s = .refused .notSelected) ∧
    (¬(s.fsm = .receiving ∧ 13 ≤ s.len ∧ ¬(s.len = 13 ∧ b = 0x34)) →
      exec (.byteRecvOverrun b) s = .refused .notSelected) ∧
    (∀ p : Payload, exec (.frameUnrecognised 0x20 0x84 0x52 p) s = .refused .notSelected)

/-- Fourteen bytes with gaps below 500 ms are reassembled, validated and decoded, from any IDLE state (40_reassembler.md sections 4 and 5 (R108, R111, R113, R121); 41_checksum_validator.md R134; 42_frame_decoder.md R140). -/
def Obligations.WholeFrameIsReassembled : Prop :=
  ∀ (s : State) (f : Frame) (dbg : Bool) (nows : List Time) (last : Time) (rest : List Edge), s.fsm = .idle →
    f.start = 0x32 → f.endByte = 0x34 → nows.length = 13 →
    (∀ (k : Nat) (x y : Time), (nows ++ [last])[k]? = some x → (nows ++ [last])[k + 1]? = some y →
      (y - x).toNat < 500) →
    RunsTo 14
      { s with inputs := List.zipWith (fun now b => byteEdge now dbg b) (nows ++ [last]) f.toBytes ++ rest }
      { s with
        buf := [], tLast := last, inputs := rest
        log := (if dbg then [.dump f] else []) ++
          (if xorSum f = f.checksum then [] else [.checksumFail f (xorSum f) f.checksum])
        store :=
          if xorSum f = f.checksum ∧ f.source = 0x20 ∧ f.destination = 0x84 ∧ f.command = 0x52
          then some (decodedFields f.payload) else s.store }

/-- Frame of the buffer: START and FILL store one byte at offset LEN; the rest store none (20_memory.md R50, R59; 40_reassembler.md R106, R108 to R114). -/
def Obligations.OnlyStartAndFillStoreABufferByte : Prop :=
  ∀ (s t : State) (b : Byte) (dbg : Bool) (now : Time) (p : Payload) (x y z : Byte), s.SequencingOk →
    (exec .byteIdleStart s = .next t →
      memRead t s.len = some 0x32 ∧ ∀ a, a ≠ s.len → memRead t a = memRead s a) ∧
    (exec (.byteRecvFill b) s = .next t →
      memRead t s.len = some b ∧ ∀ a, a ≠ s.len → memRead t a = memRead s a) ∧
    (exec (.byteIdleNoise b) s = .next t → ∀ a, memRead t a = memRead s a) ∧
    (exec (.frameStatus52 p) s = .next t → ∀ a, memRead t a = memRead s a) ∧
    (exec (.frameUnrecognised x y z p) s = .next t → ∀ a, memRead t a = memRead s a) ∧
    (exec (.tick now) s = .next t → ¬ s.late now → ∀ a, memRead t a = memRead s a) ∧
    (exec (.byteRecvEnd dbg) s = .next t → ∀ a, memRead t a = none) ∧
    (exec (.byteRecvOverrun b) s = .next t → ∀ a, memRead t a = none) ∧
    (exec (.tick now) s = .next t → s.late now → ∀ a, memRead t a = none)

/-- The read port gives each field of the last decode, by unit and name, and nothing before the first (43_state_store.md R170, R171; 10_state.md R31).
That a value is absent while `ST.valid` is 0 is R31's recommendation (log entry 6). -/
def Obligations.ReadPortShowsTheLastDecodedValues : Prop :=
  ∀ (s t : State) (p : Payload) (name : FieldName) (unit : Byte),
    (exec (.frameStatus52 p) s = .next t →
      t.readStore 0x20 name = some ((decodedFields p).get name) ∧ t.outputs.stValid = true ∧
      t.outputs.st = some (decodedFields p)) ∧
    (unit ≠ 0x20 → s.readStore unit name = none) ∧
    (s.stValid = false → s.readStore unit name = none ∧ s.outputs.st = none)

/-- Reads between the same two steps show one snapshot of the State Store (20_memory.md R61, R63; 70_reset_and_hazards.md R256; 10_state.md R20).
The reader's schedule, counted in clock edges, is the model's form (log entry 19); what no pending edge does is log
entry 2, the absent values log entry 6. -/
def Obligations.ReadsBetweenTheSameStepsAreOneSnapshot : Prop :=
  ∀ (s : State) (r : TimedRead) (rs : List TimedRead),
    (∀ e ∈ (afterEdges r.wait s).inputs.take ((rs.map TimedRead.wait).sum), e.rst = false ∧ e.stepEn = false) →
    readerSamples (r :: rs) s = (r :: rs).map (fun x => (afterEdges r.wait s).sampleEntry x.unit x.name) ∧
    (∀ v, (afterEdges r.wait s).store = some v → (∀ x ∈ r :: rs, x.unit = 0x20) →
      readerSamples (r :: rs) s = (r :: rs).map (fun x => ⟨true, some (v.get x.name)⟩)) ∧
    ((afterEdges r.wait s).store = none →
      readerSamples (r :: rs) s = (r :: rs).map (fun _ => ⟨false, none⟩))

/-- Reads on both sides of a decode pair fields of two frames, and nothing in the samples tells (20_memory.md R63; 70_reset_and_hazards.md R256; 43_state_store.md R171, R172).
The reader's schedule, counted in clock edges, is the model's form (log entry 19). -/
def Obligations.ReadsAcrossADecodeMixFramesUndetectably : Prop :=
  ∀ (s : State) (p : Payload) (f : Frame) (now : Time) (dbg : Bool) (rest : List Edge) (n : FieldName)
    (early later : List FieldName),
    s.store = some (decodedFields p) → s.fsm = .receiving → s.buf ++ [0x34] = f.toBytes → ¬ s.late now →
    f.start = 0x32 → xorSum f = f.checksum → f.source = 0x20 → f.destination = 0x84 → f.command = 0x52 →
    s.inputs = byteEdge now dbg 0x34 :: rest → (∀ x ∈ early, x ∉ n :: later) →
    readerSamples (readsAtOnce 0x20 early ++ ⟨1, 0x20, n⟩ :: readsAtOnce 0x20 later) s =
      early.map (fun x => ⟨true, some ((decodedFields p).get x)⟩) ++
        (n :: later).map (fun x => ⟨true, some ((decodedFields f.payload).get x)⟩) ∧
    ∃ q : Payload, ∀ (t : State) (ports : StepPorts) (rest' : List Edge),
      t.store = some (decodedFields q) → t.inputs = idleEdge ports :: rest' →
      readerSamples (readsAtOnce 0x20 early ++ ⟨1, 0x20, n⟩ :: readsAtOnce 0x20 later) t =
        readerSamples (readsAtOnce 0x20 early ++ ⟨1, 0x20, n⟩ :: readsAtOnce 0x20 later) s
end

