-- ==== Sys2Proof/Laws/Frame.lean ====
section
/-! SUPPORT. Laws of frames: the byte map, the exclusive-or sum, and the frame decoder. -/

namespace Sys2Proof

@[simp] theorem Frame.toBytes_length (f : Frame) : f.toBytes.length = 14 := rfl

@[simp] theorem Frame.ofBytes?_toBytes (f : Frame) : Frame.ofBytes? f.toBytes = some f := rfl

/-- The one thing `ofBytes?` can answer. -/
theorem Frame.ofBytes?_eq_some {bs : List Byte} {f : Frame} :
    Frame.ofBytes? bs = some f ↔ bs = f.toBytes := by
  constructor
  · intro h
    unfold Frame.ofBytes? at h
    split at h
    · cases h; rfl
    · cases h
  · rintro rfl; rfl

theorem Frame.ofBytes?_isSome {bs : List Byte} (h : bs.length = 14) : ∃ f, Frame.ofBytes? bs = some f := by
  match bs, h with
  | [b0, b1, b2, b3, b4, b5, b6, b7, b8, b9, b10, b11, b12, b13], _ => exact ⟨_, rfl⟩

theorem Frame.ofBytes?_eq_none {bs : List Byte} (h : bs.length ≠ 14) : Frame.ofBytes? bs = none := by
  cases hf : Frame.ofBytes? bs with
  | none => rfl
  | some f => exact absurd (by rw [Frame.ofBytes?_eq_some.1 hf, Frame.toBytes_length]) h

/-- Two frames with the same bytes are one frame. -/
theorem Frame.toBytes_inj {f g : Frame} (h : f.toBytes = g.toBytes) : f = g := by
  have := Frame.ofBytes?_eq_some.2 h
  simpa using this

/-- A buffer that opens with the start sentinel, read as a frame, gives a frame that does. -/
theorem Frame.start_of_toBytes {f : Frame} {bs : List Byte} (h : f.toBytes = bs) : bs[0]? = some f.start := by
  subst h; rfl

theorem Frame.endByte_of_append {f : Frame} {bs : List Byte} {b : Byte} (h : bs ++ [b] = f.toBytes) :
    b = f.endByte ∧ bs.length = 13 := by
  have hl : bs.length = 13 := by simpa using congrArg List.length h
  refine ⟨?_, hl⟩
  have := congrArg (fun l => l[13]?) h
  simpa [Frame.toBytes, List.getElem?_append, hl] using this

theorem foldl_xor_eq (l : List Byte) (a : Byte) : l.foldl (· ^^^ ·) a = a ^^^ l.foldl (· ^^^ ·) 0 := by
  induction l generalizing a with
  | nil => simp
  | cons x l ih => rw [List.foldl_cons, ih, List.foldl_cons, ih (0 ^^^ x)]; simp [BitVec.xor_assoc]

/-- `Validate` in the words of R131. -/
theorem validate_pass_iff (f : Frame) :
    (validate f).1 = true ↔ xorSum f = f.checksum ∧ f.start = Config.START := by
  simp [validate]

@[simp] theorem validate_computed (f : Frame) : (validate f).2 = xorSum f := rfl

@[simp] theorem xorSum_withChecksum (f : Frame) : xorSum f.withChecksum = xorSum f := rfl

theorem Frame.build_pass (source destination command : Byte) (payload : Payload) :
    (validate (Frame.build source destination command payload)).1 = true := by
  rw [validate_pass_iff]; exact ⟨rfl, rfl⟩

/-- What the frame decoder answers on a candidate frame that passes. -/
theorem decodeFrame_of_valid {f : Frame} (hs : f.start = Config.START) (he : f.endByte = Config.END)
    (hv : (validate f).1 = true) :
    decodeFrame f = if f.hasRecognisedKey then .ok (.frameStatus52 f.payload)
      else .ok (.frameUnrecognised f.source f.destination f.command f.payload) := by
  simp [decodeFrame, hs, he, hv]

/-- Everything the frame decoder accepts. -/
theorem decodeFrame_ok {f : Frame} {i : Instr} (h : decodeFrame f = .ok i) :
    f.start = Config.START ∧ f.endByte = Config.END ∧ (validate f).1 = true ∧
    ((f.hasRecognisedKey = true ∧ i = .frameStatus52 f.payload) ∨
     (f.hasRecognisedKey = false ∧ i = .frameUnrecognised f.source f.destination f.command f.payload)) := by
  unfold decodeFrame at h
  split at h
  · cases h
  · split at h
    · cases h
    · split at h
      · cases h
      · split at h
        · rename_i hs he hv hk
          cases h; exact ⟨by simpa using hs, by simpa using he, by simpa using hv, .inl ⟨hk, rfl⟩⟩
        · rename_i hs he hv hk
          cases h; exact ⟨by simpa using hs, by simpa using he, by simpa using hv, .inr ⟨by simpa using hk, rfl⟩⟩

theorem stepWord_rxValid (v : Bool) (b : Byte) (now : Time) (dbg : Bool) :
    StepPorts.rxValid ⟨now, stepWord v b, dbg⟩ = v := by
  simp only [StepPorts.rxValid]
  revert v b; decide

theorem stepWord_rxData (v : Bool) (b : Byte) (now : Time) (dbg : Bool) :
    StepPorts.rxData ⟨now, stepWord v b, dbg⟩ = b := by
  simp only [StepPorts.rxData]
  revert v b; decide

theorem stepWord_ports (p : StepPorts) : stepWord p.rxValid p.rxData = p.word := by
  obtain ⟨now, w, dbg⟩ := p
  simp only [StepPorts.rxData, StepPorts.rxValid]
  revert w; decide

/-- Everything the second level of the step decoder can select (R82). -/
theorem selectByteOp_cases (fsm : Fsm) (len : Nat) (b : Byte) :
    (fsm = .idle ∧ b = Config.START ∧ selectByteOp fsm len b = .idleStart) ∨
    (fsm = .idle ∧ b ≠ Config.START ∧ selectByteOp fsm len b = .idleNoise) ∨
    (fsm = .receiving ∧ len + 1 < 14 ∧ selectByteOp fsm len b = .recvFill) ∨
    (fsm = .receiving ∧ len + 1 = 14 ∧ b = Config.END ∧ selectByteOp fsm len b = .recvEnd) ∨
    (fsm = .receiving ∧ 14 ≤ len + 1 ∧ ¬(len + 1 = 14 ∧ b = Config.END) ∧
      selectByteOp fsm len b = .recvOverrun) := by
  have hF : Config.FRAME_LEN = 14 := rfl
  cases fsm with
  | idle =>
    by_cases h : b = Config.START
    · exact .inl ⟨rfl, h, if_pos h⟩
    · exact .inr (.inl ⟨rfl, h, if_neg h⟩)
  | receiving =>
    by_cases he : len + 1 = 14 ∧ b = Config.END
    · exact .inr (.inr (.inr (.inl ⟨rfl, he.1, he.2, if_pos he⟩)))
    · by_cases hl : 14 ≤ len + 1
      · exact .inr (.inr (.inr (.inr ⟨rfl, hl, he, (if_neg he).trans (if_pos hl)⟩)))
      · exact .inr (.inr (.inl ⟨rfl, by omega, (if_neg he).trans (if_neg hl)⟩))

/-- The step decoder reads back a step word put together from its two fields. -/
theorem decodeStep_stepWord (v : Bool) (b : Byte) (now : Time) (dbg : Bool) :
    decodeStep ⟨now, stepWord v b, dbg⟩ = if v then .byte now b dbg else .tick now := by
  simp [decodeStep, stepWord_rxValid, stepWord_rxData]

end Sys2Proof
end

