-- ==== Sys2Proof/Laws/State.lean ====
section
/-! SUPPORT. The field lemmas of the state's updates: one per field per update, each true by unfolding. -/

namespace Sys2Proof.Machine

@[simp] theorem appendByte_fsm (b : Byte) (s : State) : (appendByte b s).fsm = s.fsm := rfl
@[simp] theorem appendByte_buf (b : Byte) (s : State) : (appendByte b s).buf = s.buf ++ [b] := rfl
@[simp] theorem appendByte_tLast (b : Byte) (s : State) : (appendByte b s).tLast = s.tLast := rfl
@[simp] theorem appendByte_store (b : Byte) (s : State) : (appendByte b s).store = s.store := rfl
@[simp] theorem appendByte_log (b : Byte) (s : State) : (appendByte b s).log = s.log := rfl
@[simp] theorem appendByte_inputs (b : Byte) (s : State) : (appendByte b s).inputs = s.inputs := rfl

@[simp] theorem clearBuffer_fsm (s : State) : (clearBuffer s).fsm = .idle := rfl
@[simp] theorem clearBuffer_buf (s : State) : (clearBuffer s).buf = [] := rfl
@[simp] theorem clearBuffer_tLast (s : State) : (clearBuffer s).tLast = s.tLast := rfl
@[simp] theorem clearBuffer_store (s : State) : (clearBuffer s).store = s.store := rfl
@[simp] theorem clearBuffer_log (s : State) : (clearBuffer s).log = s.log := rfl
@[simp] theorem clearBuffer_inputs (s : State) : (clearBuffer s).inputs = s.inputs := rfl

@[simp] theorem startBuffer_fsm (s : State) : (startBuffer s).fsm = .receiving := rfl
@[simp] theorem startBuffer_buf (s : State) : (startBuffer s).buf = [Config.START] := rfl
@[simp] theorem startBuffer_tLast (s : State) : (startBuffer s).tLast = s.tLast := rfl
@[simp] theorem startBuffer_store (s : State) : (startBuffer s).store = s.store := rfl
@[simp] theorem startBuffer_log (s : State) : (startBuffer s).log = s.log := rfl
@[simp] theorem startBuffer_inputs (s : State) : (startBuffer s).inputs = s.inputs := rfl

@[simp] theorem setTLast_fsm (now : Time) (s : State) : (setTLast now s).fsm = s.fsm := rfl
@[simp] theorem setTLast_buf (now : Time) (s : State) : (setTLast now s).buf = s.buf := rfl
@[simp] theorem setTLast_tLast (now : Time) (s : State) : (setTLast now s).tLast = now := rfl
@[simp] theorem setTLast_store (now : Time) (s : State) : (setTLast now s).store = s.store := rfl
@[simp] theorem setTLast_log (now : Time) (s : State) : (setTLast now s).log = s.log := rfl
@[simp] theorem setTLast_inputs (now : Time) (s : State) : (setTLast now s).inputs = s.inputs := rfl

@[simp] theorem beginStep_fsm (s : State) : (beginStep s).fsm = s.fsm := rfl
@[simp] theorem beginStep_buf (s : State) : (beginStep s).buf = s.buf := rfl
@[simp] theorem beginStep_tLast (s : State) : (beginStep s).tLast = s.tLast := rfl
@[simp] theorem beginStep_store (s : State) : (beginStep s).store = s.store := rfl
@[simp] theorem beginStep_log (s : State) : (beginStep s).log = [] := rfl
@[simp] theorem beginStep_inputs (s : State) : (beginStep s).inputs = s.inputs := rfl

@[simp] theorem logRecord_fsm (r : LogRecord) (s : State) : (logRecord r s).fsm = s.fsm := rfl
@[simp] theorem logRecord_buf (r : LogRecord) (s : State) : (logRecord r s).buf = s.buf := rfl
@[simp] theorem logRecord_tLast (r : LogRecord) (s : State) : (logRecord r s).tLast = s.tLast := rfl
@[simp] theorem logRecord_store (r : LogRecord) (s : State) : (logRecord r s).store = s.store := rfl
@[simp] theorem logRecord_log (r : LogRecord) (s : State) : (logRecord r s).log = s.log ++ [r] := rfl
@[simp] theorem logRecord_inputs (r : LogRecord) (s : State) : (logRecord r s).inputs = s.inputs := rfl

@[simp] theorem writeStore_fsm (v : StoreFields) (s : State) : (writeStore v s).fsm = s.fsm := rfl
@[simp] theorem writeStore_buf (v : StoreFields) (s : State) : (writeStore v s).buf = s.buf := rfl
@[simp] theorem writeStore_tLast (v : StoreFields) (s : State) : (writeStore v s).tLast = s.tLast := rfl
@[simp] theorem writeStore_store (v : StoreFields) (s : State) : (writeStore v s).store = some v := rfl
@[simp] theorem writeStore_log (v : StoreFields) (s : State) : (writeStore v s).log = s.log := rfl
@[simp] theorem writeStore_inputs (v : StoreFields) (s : State) : (writeStore v s).inputs = s.inputs := rfl

@[simp] theorem applyReset_fsm (s : State) : (applyReset s).fsm = .idle := rfl
@[simp] theorem applyReset_buf (s : State) : (applyReset s).buf = [] := rfl
@[simp] theorem applyReset_tLast (s : State) : (applyReset s).tLast = State.reset.tLast := rfl
@[simp] theorem applyReset_store (s : State) : (applyReset s).store = none := rfl
@[simp] theorem applyReset_log (s : State) : (applyReset s).log = [] := rfl
@[simp] theorem applyReset_inputs (s : State) : (applyReset s).inputs = s.inputs := rfl

@[simp] theorem presentStep_fsm (p : StepPorts) (s : State) : (presentStep p s).fsm = s.fsm := rfl
@[simp] theorem presentStep_buf (p : StepPorts) (s : State) : (presentStep p s).buf = s.buf := rfl
@[simp] theorem presentStep_tLast (p : StepPorts) (s : State) : (presentStep p s).tLast = s.tLast := rfl
@[simp] theorem presentStep_store (p : StepPorts) (s : State) : (presentStep p s).store = s.store := rfl
@[simp] theorem presentStep_log (p : StepPorts) (s : State) : (presentStep p s).log = s.log := rfl
@[simp] theorem presentStep_inputs (p : StepPorts) (s : State) : (presentStep p s).inputs = stepEdge p :: s.inputs := rfl

theorem len_eq (s : State) : s.len = s.buf.length := rfl

@[simp] theorem appendByte_len (b : Byte) (s : State) : (appendByte b s).len = s.len + 1 := by
  simp [len_eq]

@[simp] theorem clearBuffer_len (s : State) : (clearBuffer s).len = 0 := rfl

@[simp] theorem startBuffer_len (s : State) : (startBuffer s).len = 1 := rfl

theorem raise_framing (s : State) : raise .framing s = s := rfl

theorem raise_unrecognisedKey (s : State) : raise .unrecognisedKey s = s := rfl

theorem raise_timeout (s : State) :
    raise .timeout s = { s with fsm := .idle, buf := [], log := s.log ++ [.timeout s.buf] } := rfl

theorem raise_overrun (s : State) :
    raise .overrun s = { s with fsm := .idle, buf := [], log := s.log ++ [.overrun s.buf] } := rfl

theorem raise_checksumFailure (f : Frame) (computed received : Byte) (s : State) :
    raise (.checksumFailure f computed received) s =
      { s with log := s.log ++ [.checksumFail f computed received] } := rfl

end Sys2Proof.Machine
end

