-- ==== Sys2Proof/Laws/Ops.lean ====
section
/-! SUPPORT. What each shared operation and each meaning can do, said once. -/

namespace Sys2Proof.Machine

/-! The memory's form (spec/10_state.md R36). -/

theorem memAppend_wf {m : Memory} {b : Byte} (h : m.length < Config.FRAME_LEN) : Memory.wf (memAppend m b) = true := by
  simp [Memory.wf, memAppend, Config.FRAME_LEN] at *; omega

theorem clearBuffer_wf (s : State) : Memory.wf (clearBuffer s).buf = true := by
  simp [Memory.wf]

theorem startBuffer_wf (s : State) : Memory.wf (startBuffer s).buf = true := by
  simp [Memory.wf, Config.FRAME_LEN]

theorem reset_wf : Memory.wf State.reset.buf = true := by decide

/-- A read of the offset just appended gives the byte; any other offset reads as before. -/
theorem memRead_appendByte (b : Byte) (s : State) (off : Nat) :
    memRead (appendByte b s) off = if off = s.len then some b else memRead s off := by
  simp only [memRead, appendByte_buf]
  have hl : s.len = s.buf.length := rfl
  by_cases h : off = s.len
  · subst h; simp [hl]
  · rw [if_neg h]
    rcases lt_or_gt_of_ne h with h | h
    · rw [List.getElem?_append_left (by omega)]
    · rw [List.getElem?_eq_none (by simp; omega), List.getElem?_eq_none (by omega)]

/-! The timeout phase (R103, R105). -/

theorem timeoutFires_iff (now : Time) (s : State) :
    timeoutFires now s = true ↔ s.fsm = .receiving ∧ Config.TIMEOUT ≤ (now - s.tLast).toNat := by
  rw [timeoutFires, elapsed, Bool.and_eq_true, beq_iff_eq, decide_eq_true_iff]

/-- Everything the timeout phase can do. -/
theorem timeoutPhase_cases (now : Time) (s : State) :
    (timeoutFires now s = true ∧
      timeoutPhase now s = { s with fsm := .idle, buf := [], log := s.log ++ [.timeout s.buf] }) ∨
    (timeoutFires now s = false ∧ timeoutPhase now s = s) := by
  unfold timeoutPhase
  cases h : timeoutFires now s
  · exact .inr ⟨rfl, by simp⟩
  · exact .inl ⟨rfl, by simp [raise_timeout]⟩

/-- Everything the common part of BYTE can do. -/
theorem byteCommon_cases (now : Time) (s : State) :
    (timeoutFires now s = true ∧
      byteCommon now s = { s with fsm := .idle, buf := [], tLast := now, log := [.timeout s.buf] }) ∨
    (timeoutFires now s = false ∧ byteCommon now s = { s with tLast := now, log := [] }) := by
  have hb : timeoutFires now (beginStep s) = timeoutFires now s := rfl
  rcases timeoutPhase_cases now (beginStep s) with ⟨h, e⟩ | ⟨h, e⟩
  · exact .inl ⟨hb ▸ h, by rw [byteCommon, e]; rfl⟩
  · exact .inr ⟨hb ▸ h, by rw [byteCommon, e]; rfl⟩

/-! `Emit` (R134). -/

/-- The state after `Emit`, in one expression: it always answers, and touches the log and the store alone. -/
def emitted (f : Frame) (dbg : Bool) (s : State) : State :=
  { s with
    log := s.log ++ (if dbg then [LogRecord.dump f] else []) ++
      (if (validate f).1 then [] else [LogRecord.checksumFail f (xorSum f) f.checksum])
    store := if (validate f).1 && f.hasRecognisedKey then some (decodedFields f.payload) else s.store }

theorem emit_eq (f : Frame) (dbg : Bool) (s : State) : emit f dbg s = .next (emitted f dbg s) := by
  unfold emit decodeAndRun execFrameStatus52 execFrameUnrecognised
  cases hv : (validate f).1 <;> cases hk : f.hasRecognisedKey <;> cases dbg <;>
    simp_all [emitted, Frame.hasRecognisedKey, raise, logDump, logRecord, writeStore]

/-! The byte phase (R100). -/

theorem execByteRecvEnd_of_frame {s : State} {f : Frame} (dbg : Bool) (hr : s.fsm = .receiving)
    (hf : s.buf ++ [Config.END] = f.toBytes) :
    execByteRecvEnd dbg s = .next (emitted f dbg (clearBuffer s)) := by
  have : Frame.ofBytes? (appendByte Config.END s).buf = some f := Frame.ofBytes?_eq_some.2 hf
  simp only [execByteRecvEnd, hr, this]
  exact emit_eq f dbg _

/-- Everything the byte phase can do, in every state: it always answers a next state, and this is which. -/
theorem bytePhase_cases (b : Byte) (dbg : Bool) (s : State) :
    (s.fsm = .idle ∧ b = Config.START ∧ bytePhase b dbg s = .next (startBuffer s)) ∨
    (s.fsm = .idle ∧ b ≠ Config.START ∧ bytePhase b dbg s = .next s) ∨
    (s.fsm = .receiving ∧ s.len + 1 < 14 ∧ bytePhase b dbg s = .next (appendByte b s)) ∨
    (∃ f : Frame, s.fsm = .receiving ∧ s.len = 13 ∧ b = Config.END ∧ s.buf ++ [b] = f.toBytes ∧
      bytePhase b dbg s = .next (emitted f dbg (clearBuffer s))) ∨
    (s.fsm = .receiving ∧ 14 ≤ s.len + 1 ∧ ¬(s.len = 13 ∧ b = Config.END) ∧
      bytePhase b dbg s = .next { s with fsm := .idle, buf := [], log := s.log ++ [.overrun (s.buf ++ [b])] }) := by
  rcases selectByteOp_cases s.fsm s.len b with
    ⟨hs, hb, hsel⟩ | ⟨hs, hb, hsel⟩ | ⟨hs, hl, hsel⟩ | ⟨hs, hl, hb, hsel⟩ | ⟨hs, hl, hb, hsel⟩
  · exact .inl ⟨hs, hb, by simp only [bytePhase, hsel, execByteIdleStart]; exact if_pos hs⟩
  · exact .inr (.inl ⟨hs, hb, by simp only [bytePhase, hsel, execByteIdleNoise]; exact if_pos ⟨hs, hb⟩⟩)
  · exact .inr (.inr (.inl ⟨hs, hl, by simp only [bytePhase, hsel, execByteRecvFill]; exact if_pos ⟨hs, hl⟩⟩))
  · have hl13 : s.len = 13 := by omega
    obtain ⟨f, hf⟩ := Frame.ofBytes?_isSome (bs := s.buf ++ [b]) (by simpa [len_eq] using hl13)
    have hf' := Frame.ofBytes?_eq_some.1 hf
    refine .inr (.inr (.inr (.inl ⟨f, hs, hl13, hb, hf', ?_⟩)))
    simp only [bytePhase, hsel]
    exact execByteRecvEnd_of_frame dbg hs (hb ▸ hf')
  · refine .inr (.inr (.inr (.inr ⟨hs, hl, fun h => hb ⟨by omega, h.2⟩, ?_⟩)))
    simp only [bytePhase, hsel, execByteRecvOverrun]
    exact if_pos ⟨hs, hl, hb⟩

/-- TICK always answers. -/
theorem execTick_cases (now : Time) (s : State) :
    (timeoutFires now s = true ∧
      execTick now s = .next { s with fsm := .idle, buf := [], log := [.timeout s.buf] }) ∨
    (timeoutFires now s = false ∧ execTick now s = .next { s with log := [] }) := by
  have hb : timeoutFires now (beginStep s) = timeoutFires now s := rfl
  rcases timeoutPhase_cases now (beginStep s) with ⟨h, e⟩ | ⟨h, e⟩
  · exact .inl ⟨hb ▸ h, by rw [execTick, e]; rfl⟩
  · exact .inr ⟨hb ▸ h, by rw [execTick, e]; rfl⟩

/-! The clock edge (R20, R240). -/

theorem step_no_input {s : State} (h : s.inputs = []) : step s = .next s := by
  simp [step, runNextEdge, takeEdge, h]

theorem step_edge {s : State} {e : Edge} {rest : List Edge} (h : s.inputs = e :: rest) :
    step s = clockEdge e { s with inputs := rest } := by
  simp [step, runNextEdge, takeEdge, h]

/-- Everything one step can do. -/
theorem step_cases (s : State) :
    (s.inputs = [] ∧ step s = .next s) ∨
    (∃ e rest, s.inputs = e :: rest ∧
      ((e.rst = true ∧ step s = .next (applyReset { s with inputs := rest })) ∨
       (e.rst = false ∧ e.stepEn = false ∧ step s = .next { s with inputs := rest }) ∨
       (e.rst = false ∧ e.stepEn = true ∧ step s = exec (decodeStep e.ports) { s with inputs := rest }))) := by
  cases h : s.inputs with
  | nil => exact .inl ⟨rfl, step_no_input h⟩
  | cons e rest =>
    refine .inr ⟨e, rest, rfl, ?_⟩
    rw [step_edge h]
    cases hr : e.rst <;> cases he : e.stepEn <;> simp [clockEdge, hr, he]

end Sys2Proof.Machine
end

