-- ==== Sys2Proof/Laws/PerInstr.lean ====
section
/-! SUPPORT. The family RowMatch: every instruction's encoding fits its row of spec/opcode_table.json. -/

namespace Sys2Proof.Laws

/-- The fixed bytes of a frame row: offsets 0 and 13, and for the recognised row the key (R83). -/
def frameFits (mnemonic : String) (f : Frame) : Bool :=
  f.isValid && (if mnemonic = "FRAME.STATUS52" then f.hasRecognisedKey else !f.hasRecognisedKey)

/-- An encoded form fits the row of this mnemonic: a step word matches the row's pattern under its mask, a frame is
valid and has the row's key (R96). -/
def fitsRow (mnemonic : String) : Encoded → Bool
  | .word p => stepRows.any (fun r => r.mnemonic == mnemonic && (p.word &&& r.mask) == r.pattern)
  | .frame f => frameFits mnemonic f

/-- The encoding of a well-formed instruction fits the row the table gives its mnemonic. -/
def RowMatch.Statement (i : Instr) : Prop := wellFormed i = true → fitsRow i.mnemonic (encode i) = true

theorem stepWord_byte_matches (b : Byte) : stepWord true b &&& 256#9 = 256#9 := by
  revert b; decide

theorem RowMatch.tick (now : Time) : RowMatch.Statement (.tick now) := by
  intro _; simp [fitsRow, encode, Instr.mnemonic, stepRows, stepWord]

theorem RowMatch.byte (now : Time) (b : Byte) (dbg : Bool) : RowMatch.Statement (.byte now b dbg) := by
  intro _; simp [fitsRow, encode, Instr.mnemonic, stepRows, stepWord_byte_matches]

theorem RowMatch.byteIdleStart : RowMatch.Statement .byteIdleStart := by
  intro _; simp [fitsRow, encode, Instr.mnemonic, stepRows, stepWord, Config.START]

theorem RowMatch.byteIdleNoise (b : Byte) : RowMatch.Statement (.byteIdleNoise b) := by
  intro _; simp [fitsRow, encode, Instr.mnemonic, stepRows, stepWord_byte_matches]

theorem RowMatch.byteRecvFill (b : Byte) : RowMatch.Statement (.byteRecvFill b) := by
  intro _; simp [fitsRow, encode, Instr.mnemonic, stepRows, stepWord_byte_matches]

theorem RowMatch.byteRecvEnd (dbg : Bool) : RowMatch.Statement (.byteRecvEnd dbg) := by
  intro _; simp [fitsRow, encode, Instr.mnemonic, stepRows, stepWord, Config.END]

theorem RowMatch.byteRecvOverrun (b : Byte) : RowMatch.Statement (.byteRecvOverrun b) := by
  intro _; simp [fitsRow, encode, Instr.mnemonic, stepRows, stepWord_byte_matches]

theorem RowMatch.frameStatus52 (payload : Payload) : RowMatch.Statement (.frameStatus52 payload) := by
  intro _
  have := Frame.build_pass Config.ADDR_INDOOR_1 Config.ADDR_WIRED_REMOTE Config.CMD_STATUS payload
  simp only [fitsRow, encode, Instr.mnemonic, frameFits, Frame.isValid, this]
  rfl

theorem RowMatch.frameUnrecognised (source destination command : Byte) (payload : Payload) :
    RowMatch.Statement (.frameUnrecognised source destination command payload) := by
  intro h
  have := Frame.build_pass source destination command payload
  simp only [fitsRow, encode, Instr.mnemonic, frameFits, Frame.isValid, this]
  simpa [wellFormed, Frame.build, Frame.withChecksum, Frame.isCandidate, Frame.hasRecognisedKey] using h

end Sys2Proof.Laws
end

