-- ==== Sys2Proof/Laws/Run.lean ====
section
/-! SUPPORT. Runs of several steps, and the edges of the stimulus notation. -/

namespace Sys2Proof.Machine

theorem RunsTo.zero (s : State) : RunsTo 0 s s := rfl

theorem RunsTo.of_zero {s t : State} (h : RunsTo 0 s t) : t = s := by
  cases h; rfl

/-- A run of one step more begins with a step. -/
theorem RunsTo.succ_iff {n : Nat} {s t : State} :
    RunsTo (n + 1) s t ↔ ∃ u, step s = .next u ∧ RunsTo n u t := by
  show Host.Core.run Sys2Proof.core (n + 1) s = _ ↔ _
  have hc : Sys2Proof.core.step s = step s := rfl
  simp only [Host.Core.run, hc]
  cases h : step s with
  | next u => simp [RunsTo]
  | fault r => simp
  | refused r => simp

theorem RunsTo.cons {n : Nat} {s u t : State} (h : step s = .next u) (h' : RunsTo n u t) : RunsTo (n + 1) s t :=
  RunsTo.succ_iff.2 ⟨u, h, h'⟩

theorem RunsTo.append {m n : Nat} {s u t : State} (h : RunsTo m s u) (h' : RunsTo n u t) : RunsTo (m + n) s t := by
  induction m generalizing s with
  | zero => cases h.of_zero; simpa using h'
  | succ m ih =>
    obtain ⟨v, hv, hr⟩ := RunsTo.succ_iff.1 h
    rw [Nat.add_right_comm]
    exact RunsTo.cons hv (ih hr)

/-- A run ends in one state. -/
theorem RunsTo.unique {n : Nat} {s t u : State} (h : RunsTo n s t) (h' : RunsTo n s u) : t = u := by
  have := h.symm.trans h'
  cases this; rfl

/-- Something that holds at a state and that every step keeps holds after every run. -/
theorem RunsTo.invariant {P : State → Prop} (hstep : ∀ s t, P s → step s = .next t → P t) {n : Nat} {s t : State}
    (hs : P s) (h : RunsTo n s t) : P t := by
  induction n generalizing s with
  | zero => cases h.of_zero; exact hs
  | succ n ih =>
    obtain ⟨u, hu, hr⟩ := RunsTo.succ_iff.1 h
    exact ih (hstep s u hs hu) hr

/-- A step on a BYTE edge is BYTE. -/
theorem step_byteEdge {s : State} {now : Time} {dbg : Bool} {b : Byte} {rest : List Edge}
    (h : s.inputs = byteEdge now dbg b :: rest) : step s = exec (.byte now b dbg) { s with inputs := rest } := by
  rw [step_edge h]
  simp only [clockEdge, byteEdge, stepEdge, decodeStep_stepWord, if_true, Bool.false_eq_true, if_false]

/-- A step on a TICK edge is TICK. -/
theorem step_tickEdge {s : State} {now : Time} {dbg : Bool} {rest : List Edge}
    (h : s.inputs = tickEdge now dbg :: rest) : step s = exec (.tick now) { s with inputs := rest } := by
  rw [step_edge h]
  simp only [clockEdge, tickEdge, stepEdge, decodeStep_stepWord, if_true, Bool.false_eq_true, if_false]

theorem late_iff (s : State) (now : Time) : s.late now ↔ timeoutFires now s = true :=
  (timeoutFires_iff now s).symm

/-- BYTE in a step that is not late is the byte phase, the clock reading stored and the log emptied. -/
theorem exec_byte_not_late {s : State} {now : Time} (b : Byte) (dbg : Bool) (h : ¬ s.late now) :
    exec (.byte now b dbg) s = bytePhase b dbg { s with tLast := now, log := [] } := by
  rcases byteCommon_cases now s with ⟨h', _⟩ | ⟨_, e⟩
  · exact absurd ((late_iff s now).2 h') h
  · show bytePhase b dbg (byteCommon now s) = _
    rw [e]

/-- BYTE in a late step is the byte phase from IDLE with an empty buffer, the timeout recorded. -/
theorem exec_byte_late {s : State} {now : Time} (b : Byte) (dbg : Bool) (h : s.late now) :
    exec (.byte now b dbg) s =
      bytePhase b dbg { s with fsm := .idle, buf := [], tLast := now, log := [.timeout s.buf] } := by
  rcases byteCommon_cases now s with ⟨_, e⟩ | ⟨h', _⟩
  · show bytePhase b dbg (byteCommon now s) = _
    rw [e]
  · rw [late_iff, h'] at h; exact absurd h (by decide)

end Sys2Proof.Machine
end

