-- ==== Sys2Proof/Laws/Reader.lean ====
section
/-! SUPPORT. What a reader of the State Store sees, said once for each operation of Machine/Reader.lean. -/

namespace Sys2Proof.Machine

@[simp] theorem afterEdges_zero (s : State) : afterEdges 0 s = s := rfl

theorem afterEdges_succ {s t : State} (n : Nat) (h : step s = .next t) : afterEdges (n + 1) s = afterEdges n t := by
  simp only [afterEdges, h]

/-- Where a run ends is where the reader finds the block after as many edges. -/
theorem afterEdges_of_runsTo {n : Nat} {s t : State} (h : RunsTo n s t) : afterEdges n s = t := by
  induction n generalizing s with
  | zero => exact h.of_zero.symm
  | succ n ih =>
    obtain ⟨u, hu, hr⟩ := RunsTo.succ_iff.1 h
    rw [afterEdges_succ n hu, ih hr]

/-- With no edge pending, the reader's waiting changes nothing. -/
theorem afterEdges_no_input {s : State} (h : s.inputs = []) (n : Nat) : afterEdges n s = s := by
  induction n with
  | zero => rfl
  | succ n ih => rw [afterEdges_succ n (step_no_input h), ih]

@[simp] theorem readerSamples_nil (s : State) : readerSamples [] s = [] := rfl

@[simp] theorem readerSamples_cons (r : TimedRead) (rs : List TimedRead) (s : State) :
    readerSamples (r :: rs) s =
      (afterEdges r.wait s).sampleEntry r.unit r.name :: readerSamples rs (afterEdges r.wait s) := rfl

/-- Reads with no edge between them sample one state, and what follows starts from that state. -/
theorem readerSamples_readsAtOnce (unit : Byte) (names : List FieldName) (rs : List TimedRead) (s : State) :
    readerSamples (readsAtOnce unit names ++ rs) s = names.map (s.sampleEntry unit) ++ readerSamples rs s := by
  induction names with
  | nil => rfl
  | cons n ns ih =>
    show s.sampleEntry unit n :: readerSamples (readsAtOnce unit ns ++ rs) s = _
    rw [ih]; rfl

end Sys2Proof.Machine
end

