-- ==== Sys2Proof/Tests/Slice0.lean ====
section
/-! SUPPORT. Our own tests: the smoke test of WellFormed, words written out from the spec's encoding tables, one
step per instruction from spec/95_test_vectors.md, the host's table words, and a witness for the hypotheses of every
statement that has some. -/

namespace Sys2Proof.Tests

open Sys2Proof.Machine

/-! Helpers: small states and the frames of spec/95_test_vectors.md. -/

/-- RECEIVING with these bytes, the last one processed at `tLast`. -/
def receiving (bytes : List Byte) (tLast : Time) : State :=
  { State.reset with fsm := .receiving, buf := bytes, tLast := tLast }

/-- A buffer of `n` bytes: the start sentinel, then zeros. -/
def zeros (n : Nat) : List Byte := 0x32 :: List.replicate (n - 1) 0

/-- The state with these edges still to come. -/
def withInputs (s : State) (es : List Edge) : State := { s with inputs := es }

/-- The next state, if there is one. -/
def nextOf (o : Host.Outcome State Fault Refusal) : Option State :=
  match o with
  | .next s => some s
  | _ => none

/-- Whether the outcome is the named refusal. -/
def isNotSelected (o : Host.Outcome State Fault Refusal) : Bool :=
  match o with
  | .refused .notSelected => true
  | _ => false

/-- The payload of the S-A frame. -/
def payloadA : Payload := ⟨0x37, 0x37, 0x37, 0x00, 0x80, 0x00, 0x00, 0x00⟩

/-- S-A, T-CHK-11: a valid frame with the recognised key. -/
def frameA : Frame := ⟨0x32, 0x20, 0x84, 0x52, payloadA, 0x41, 0x34⟩

/-- S-B, T-CHK-12: the same with a wrong checksum. -/
def frameB : Frame := { frameA with checksum := 0xBE }

/-- T-DEC-8: a valid frame with the key (84, 20, 52). -/
def frameU : Frame := ⟨0x32, 0x84, 0x20, 0x52, payloadA, 0x41, 0x34⟩

/-- Thirteen bytes of a frame buffered. -/
def atEnd (f : Frame) : State := receiving (f.toBytes.take 13) 0

/-! WellFormed: each of its three checks refuses a term (30_encoding.md R82, R83). -/

theorem test_wf_noise_is_no_start_sentinel : wellFormed (.byteIdleNoise 0x32) = false := by decide
theorem test_wf_overrun_is_no_end_sentinel : wellFormed (.byteRecvOverrun 0x34) = false := by decide
theorem test_wf_unrecognised_key : wellFormed (.frameUnrecognised 0x20 0x84 0x52 payloadA) = false := by decide

/-! Decoding, words written out bit by bit from 30_encoding.md R71, R72, R82, R83. -/

theorem test_decode_tick : decode .step (.word ⟨41, 0b000000000, false⟩) = .ok (.tick 41) := by decide
theorem test_decode_tick_ignores_rx_data : decode .step (.word ⟨41, 0b011111111, true⟩) = .ok (.tick 41) := by decide
theorem test_decode_byte : decode .step (.word ⟨12, 0b101001111, true⟩) = .ok (.byte 12 0x4F true) := by decide
theorem test_decode_idle_start :
    decode (.bytePhase .idle 0) (.word ⟨7, 0b100110010, false⟩) = .ok .byteIdleStart := by decide
theorem test_decode_idle_noise :
    decode (.bytePhase .idle 0) (.word ⟨7, 0b100110100, false⟩) = .ok (.byteIdleNoise 0x34) := by decide
theorem test_decode_recv_fill :
    decode (.bytePhase .receiving 1) (.word ⟨7, 0b100110010, false⟩) = .ok (.byteRecvFill 0x32) := by decide
theorem test_decode_recv_end :
    decode (.bytePhase .receiving 13) (.word ⟨7, 0b100110100, true⟩) = .ok (.byteRecvEnd true) := by decide
theorem test_decode_recv_overrun :
    decode (.bytePhase .receiving 13) (.word ⟨7, 0b100110010, false⟩) = .ok (.byteRecvOverrun 0x32) := by decide
theorem test_decode_status52 :
    decodeFrameBytes [0x32, 0x20, 0x84, 0x52, 0x37, 0x37, 0x37, 0x00, 0x80, 0x00, 0x00, 0x00, 0x41, 0x34] =
      .ok (.frameStatus52 payloadA) := by rfl
theorem test_decode_unrecognised :
    decodeFrameBytes [0x32, 0x20, 0x84, 0x53, 0x37, 0x37, 0x37, 0x00, 0x80, 0x00, 0x00, 0x00, 0x40, 0x34] =
      .ok (.frameUnrecognised 0x20 0x84 0x53 payloadA) := by rfl

/-! Rejections, each by its name. -/

theorem test_reject_no_byte : decode (.bytePhase .idle 0) (.word ⟨7, 0b000110010, false⟩) = .error .noByte := by decide
theorem test_reject_length : decodeFrameBytes [0x32, 0x34] = .error .badLength := by rfl
/-- T-CHK-6: the checksum matches, the start byte does not. -/
theorem test_reject_start : decodeFrame { frameA with start := 0x31 } = .error .badStart := by rfl
/-- T-CHK-7's frame is no candidate frame. -/
theorem test_reject_end : decodeFrame { frameA with endByte := 0x00 } = .error .badEnd := by rfl
theorem test_reject_checksum : decodeFrame frameB = .error .badChecksum := by rfl

/-! Encoding. -/

theorem test_encode_recv_end : encode (.byteRecvEnd true) = .word ⟨0, 0b100110100, true⟩ := by decide
theorem test_encode_status52 : encode (.frameStatus52 payloadA) = .frame frameA := by decide

/-! The Checksum Validator: T-CHK-6, T-CHK-7, T-CHK-14. -/

theorem test_validate_start_byte : validate { frameA with start := 0x31 } = (false, 0x41) := by decide
theorem test_validate_ignores_end_byte : validate { frameA with endByte := 0x00 } = (true, 0x41) := by decide
theorem test_validate_payload7 :
    validate { frameA with payload := { payloadA with p7 := 0x01 } } = (false, 0x40) := by decide

/-! One step per instruction. -/

/-- T-TMO-2: 499 does not fire. -/
theorem test_tick_499 :
    (nextOf (exec (.tick 1499) (receiving [0x32, 0x20, 0x84] 1000))).map (fun t => (t.fsm, t.len)) =
      some (.receiving, 3) := by decide
/-- T-TMO-3: 500 fires. -/
theorem test_tick_500 :
    (nextOf (exec (.tick 1500) (receiving [0x32, 0x20, 0x84] 1000))).map (fun t => (t.fsm, t.outputs.ev.code, t.log)) =
      some (.idle, 1, [.timeout [0x32, 0x20, 0x84]]) := by decide
/-- T-TMO-7: timeout, then the late byte starts a new buffer in the same step. -/
theorem test_byte_late_start :
    (nextOf (exec (.byte 500 0x32 false) (receiving [0x32, 0x20] 0))).map (fun t => (t.buf, t.tLast, t.log)) =
      some ([0x32], 500, [.timeout [0x32, 0x20]]) := by decide
/-- T-TMO-11: across the wrap, 499 does not fire, and the byte is appended. -/
theorem test_byte_wrap :
    (nextOf (exec (.byte 203 0x84 false) (receiving [0x32, 0x20] 4294967000))).map (fun t => (t.buf, t.tLast)) =
      some ([0x32, 0x20, 0x84], 203) := by decide
/-- T-RSM-1, its byte phase. -/
theorem test_idle_start :
    (nextOf (exec .byteIdleStart State.reset)).map (fun t => (t.fsm, t.buf)) = some (.receiving, [0x32]) := by decide
/-- T-RSM-2, its byte phase. -/
theorem test_idle_noise : nextOf (exec (.byteIdleNoise 0x34) State.reset) = some State.reset := by decide
/-- T-RSM-4, one of its steps: a sentinel inside a frame is data. -/
theorem test_recv_fill :
    (nextOf (exec (.byteRecvFill 0x34) (receiving [0x32, 0x32] 0))).map State.buf = some [0x32, 0x32, 0x34] := by decide
/-- S-A, its last byte phase. -/
theorem test_recv_end_pass :
    (nextOf (exec (.byteRecvEnd false) (atEnd frameA))).map (fun t => (t.fsm, t.len, t.store, t.log)) =
      some (.idle, 0, some ⟨0, 0, 0, 0, false, true, 0⟩, []) := by decide
/-- T-LOG-2, its last byte phase: the dump comes first, the store stays empty. -/
theorem test_recv_end_fail :
    (nextOf (exec (.byteRecvEnd true) (atEnd frameB))).map (fun t => (t.store, t.log, t.outputs.ev.code)) =
      some (none, [.dump frameB, .checksumFail frameB 0x41 0xBE], 3) := by decide
/-- T-RSM-6, its fourteenth step. -/
theorem test_recv_overrun :
    (nextOf (exec (.byteRecvOverrun 0x32) (receiving (zeros 13) 0))).map (fun t => (t.fsm, t.log)) =
      some (.idle, [.overrun (zeros 13 ++ [0x32])]) := by decide
/-- T-DEC-4: -55, 0, -1, 0, true, true, 0. -/
theorem test_status52_corners :
    (nextOf (exec (.frameStatus52 ⟨0x80, 0xB7, 0x36, 0xF8, 0x80, 0x00, 0x00, 0x00⟩) State.reset)).map State.store =
      some (some ⟨0xC9, 0x00, 0xFF, 0, true, true, 0x0⟩) := by decide
/-- T-DEC-7: 30, -13, -54, 5, true, false, 15. -/
theorem test_status52_mixed :
    (nextOf (exec (.frameStatus52 ⟨0x55, 0x2A, 0x01, 0xFD, 0x0F, 0x00, 0x00, 0x00⟩) State.reset)).map State.store =
      some (some ⟨30, 0xF3, 0xCA, 5, true, false, 0xF⟩) := by decide
/-- T-DEC-8: valid, but no write. -/
theorem test_unrecognised :
    nextOf (exec (.frameUnrecognised 0x84 0x20 0x52 payloadA) State.reset) = some State.reset := by decide
/-- Log entry 8: an operation the decoders do not select is refused by name. -/
theorem test_not_selected : isNotSelected (exec (.byteRecvEnd false) State.reset) = true := by decide

/-! The host's table words (log entries 9, 10), as the first instruction after reset. -/

theorem test_table_word_tick : decodeTableWord 16 0x000 = some (.tick 0) := by decide
theorem test_table_word_byte : decodeTableWord 16 0x132 = some (.byte 0 0x32 false) := by decide
theorem test_table_word_too_wide : decodeTableWord 24 0x132 = none := by decide
theorem test_table_word_status52 :
    decodeTableWord 112 0x3220845200000000000000000034 = some (.frameStatus52 ⟨0, 0, 0, 0, 0, 0, 0, 0⟩) := by rfl
theorem test_table_word_unrecognised :
    decodeTableWord 112 0x3200000000000000000000000034 =
      some (.frameUnrecognised 0 0 0 ⟨0, 0, 0, 0, 0, 0, 0, 0⟩) := by rfl
/-- T-RSM-1 through the step. -/
theorem test_first_step_byte :
    (nextOf (step (State.reset.withFetchWord 16 0x132))).map (fun t => (t.fsm, t.buf)) = some (.receiving, [0x32]) := by
  decide
/-- T-DEC-1 through the step: all payload zero, -55 three times. -/
theorem test_first_step_status52 :
    (nextOf (step (State.reset.withFetchWord 112 0x3220845200000000000000000034))).map State.store =
      some (some ⟨0xC9, 0xC9, 0xC9, 0, false, false, 0⟩) := by decide
theorem test_first_step_unrecognised :
    (nextOf (step (State.reset.withFetchWord 112 0x3200000000000000000000000034))).map (fun t => (t.store, t.log)) =
      some (none, []) := by decide

/-! Witnesses: for every statement with hypotheses, a concrete state and operands that meet them, for each clause,
at the boundary values where the clauses meet. -/

theorem test_witness_O1 :
    (wellFormed (.byteRecvEnd true) = true ∧ appliesAt (.byteRecvEnd true) (.bytePhase .receiving 13) = true) ∧
    (wellFormed (.byteRecvFill 0x34) = true ∧ appliesAt (.byteRecvFill 0x34) (.bytePhase .receiving 12) = true) ∧
    (wellFormed (.frameStatus52 payloadA) = true ∧ appliesAt (.frameStatus52 payloadA) .step = true) := by decide

theorem test_witness_O2 :
    (decode .step (.word ⟨7, 0x132, false⟩) = .ok (.byte 7 0x32 false) ∧ StepPorts.rxValid ⟨7, 0x132, false⟩ = true) ∧
    (decode .step (.word ⟨7, 0x0FF, true⟩) = .ok (.tick 7) ∧ StepPorts.rxValid ⟨7, 0x0FF, true⟩ = false) ∧
    decode (.bytePhase .receiving 13) (.word ⟨7, 0x134, false⟩) = .ok (.byteRecvEnd false) ∧
    decode .step (.frame frameA) = .ok (.frameStatus52 payloadA) := by decide

theorem test_witness_O4 :
    ({ frameA with start := 0x31 } : Frame).start ≠ 0x32 ∧
    (frameA.start = 0x32 ∧ ({ frameA with endByte := 0x00 } : Frame).endByte ≠ 0x34) ∧
    (frameB.start = 0x32 ∧ frameB.endByte = 0x34 ∧ xorSum frameB ≠ frameB.checksum) ∧
    (frameA.endByte = 0x34 ∧ xorSum frameA = frameA.checksum ∧
      (frameA.source = 0x20 ∧ frameA.destination = 0x84 ∧ frameA.command = 0x52)) ∧
    (frameU.start = 0x32 ∧ frameU.endByte = 0x34 ∧ xorSum frameU = frameU.checksum ∧
      ¬(frameU.source = 0x20 ∧ frameU.destination = 0x84 ∧ frameU.command = 0x52)) := by decide

theorem test_witness_O5 :
    decode .step (.word ⟨7, 0x032, false⟩) = .ok (.tick 7) ∧
    decode (.bytePhase .idle 0) (.word ⟨7, 0x033, false⟩) = .error .noByte ∧
    decode (.bytePhase .receiving 1) (.word ⟨7, 0x134, false⟩) = .ok (.byteRecvFill 0x34) ∧
    decode (.bytePhase .receiving 13) (.word ⟨7, 0x134, false⟩) = .ok (.byteRecvEnd false) := by decide

theorem test_witness_O7 :
    (frameA.toBytes[0]? = some 0x32 ∧ frameA.toBytes[13]? = some 0x34) ∧
    Frame.ofBytes? frameA.toBytes = some frameA ∧ frameA.toBytes[4]? = some 0x37 ∧ frameA.toBytes[11]? = some 0x00 := by
  decide

/-- T-CHK-8 for the permutation, T-CHK-2 for the eleven equal bytes. -/
theorem test_witness_O8 :
    List.Perm ((frameA.toBytes.drop 1).take 11) ((frameU.toBytes.drop 1).take 11) ∧
    ((Frame.mk 0x32 0xFF 0xFF 0xFF ⟨0xFF, 0xFF, 0xFF, 0xFF, 0xFF, 0xFF, 0xFF, 0xFF⟩ 0xFF 0x34).toBytes.drop 1).take 11 =
      List.replicate 11 0xFF ∧
    frameA.toBytes = [0x32, 0x20, 0x84, 0x52, 0x37, 0x37, 0x37, 0x00, 0x80, 0x00, 0x00, 0x00, 0x41, 0x34] := by decide

theorem test_witness_O9 :
    frameA.toBytes = [0x32, 0x20, 0x84, 0x52, 0x37, 0x37, 0x37, 0x00, 0x80, 0x00, 0x00, 0x00, 0x41, 0x34] := by decide

/-- T-CHK-11 with offset 1 altered, with offset 12 altered (T-CHK-13), and T-CHK-9's two equal errors. -/
theorem test_witness_O10 :
    (validate frameA).1 = true ∧
    (frameA.toBytes[1]? ≠ some 0x21 ∧
      ({ frameA with source := 0x21 } : Frame).toBytes = frameA.toBytes.set 1 0x21) ∧
    (frameA.toBytes[12]? ≠ some 0x40 ∧
      ({ frameA with checksum := 0x40 } : Frame).toBytes = frameA.toBytes.set 12 0x40) ∧
    (({ frameA with source := 0x21, destination := 0x85 } : Frame).start = 0x32 ∧
      (List.zipWith (· ^^^ ·) ((frameA.toBytes.drop 1).take 12)
        ((({ frameA with source := 0x21, destination := 0x85 } : Frame).toBytes.drop 1).take 12)).foldl
          (· ^^^ ·) 0 = 0) := by decide

theorem test_witness_O11 :
    frameA.start = 0x32 ∧ frameA.endByte = 0x34 ∧ xorSum frameA = frameA.checksum ∧
    frameA.source = 0x20 ∧ frameA.destination = 0x84 ∧ frameA.command = 0x52 := by decide

/-- T-TMP-9: 0xFF in all three temperature bytes. -/
theorem test_witness_O12 :
    exec (.frameStatus52 ⟨0xFF, 0xFF, 0xFF, 0x00, 0x00, 0x00, 0x00, 0x00⟩) State.reset =
      .next { State.reset with store := some ⟨72, 72, 72, 0, false, false, 0⟩ } := by rfl

/-- Two payloads that agree on each of the four masks, and one that differs from the first in unread bytes only. -/
theorem test_witness_O15 :
    (0x07 &&& 0x07 : Byte) = 0x7F &&& 0x07 ∧ (0xFA &&& 0xF8 : Byte) = 0xFD &&& 0xF8 ∧
    (0x8B &&& 0x80 : Byte) = 0xF0 &&& 0x80 ∧ (0x8B &&& 0x0F : Byte) = 0x0B &&& 0x0F ∧
    exec (.frameStatus52 payloadA) State.reset =
      .next { State.reset with store := some ⟨0, 0, 0, 0, false, true, 0⟩ } ∧
    exec (.frameStatus52 { payloadA with p7 := 0xFF }) State.reset =
      .next { State.reset with store := some ⟨0, 0, 0, 0, false, true, 0⟩ } :=
  ⟨by decide, by decide, by decide, by decide, rfl, rfl⟩

theorem test_witness_O17 :
    (frameU.start = 0x32 ∧ frameU.endByte = 0x34 ∧ xorSum frameU = frameU.checksum ∧
      ¬(frameU.source = 0x20 ∧ frameU.destination = 0x84 ∧ frameU.command = 0x52)) ∧
    ((atEnd frameU).fsm = .receiving ∧ (atEnd frameU).buf ++ [0x34] = frameU.toBytes ∧ ¬ (atEnd frameU).late 499) := by
  decide

/-- Also for O19, O20: the two sides of the timeout, at 499 and 500 (T-TMO-2, T-TMO-3). -/
theorem test_witness_O18 :
    (receiving [0x32, 0x20, 0x84] 1000).late 1500 ∧ ¬ (receiving [0x32, 0x20, 0x84] 1000).late 1499 ∧
    ¬ State.reset.late 500 := by decide

theorem test_witness_O19 :
    (receiving [0x32] 0).late 500 ∧ ¬ (receiving [0x32] 0).late 499 ∧
    ByteOp.Selected .recvFill 0x34 (byteCommon 499 (receiving (zeros 12) 0)) ∧
    ByteOp.Selected .recvEnd 0x34 (byteCommon 499 (receiving (zeros 13) 0)) ∧
    ByteOp.Selected .recvOverrun 0x32 (byteCommon 499 (receiving (zeros 13) 0)) ∧
    ByteOp.Selected .idleStart 0x32 (byteCommon 500 (receiving (zeros 13) 0)) ∧
    ByteOp.Selected .idleNoise 0x34 (byteCommon 500 (receiving (zeros 13) 0)) := by decide

theorem test_witness_O20 :
    exec (.tick 500) (receiving [0x32] 0) = .next { receiving [0x32] 0 with fsm := .idle, buf := [], log := [.timeout [0x32]] } ∧
    (receiving [0x32] 0).late 500 := ⟨rfl, by decide⟩

theorem test_witness_O21 : State.reset.fsm = .idle ∧ (receiving (zeros 13) 0).late 500 := by decide

theorem test_witness_O22 :
    State.reset.fsm = .idle ∧ State.reset.buf = [] ∧ ([0x00, 0xFF, 0x34] : List Byte) ≠ [] ∧
    ∀ b ∈ ([0x00, 0xFF, 0x34] : List Byte), b ≠ 0x32 := by decide

/-- LEN at both ends, 1 and 12, not late at 499. -/
theorem test_witness_O23 :
    ((receiving (zeros 1) 0).fsm = .receiving ∧ 1 ≤ (receiving (zeros 1) 0).len ∧ ¬ (receiving (zeros 1) 0).late 499) ∧
    ((receiving (zeros 12) 0).fsm = .receiving ∧ (receiving (zeros 12) 0).len = 12 ∧
      ¬ (receiving (zeros 12) 0).late 499) ∧
    ((receiving [0x32] 0).buf = [0x32] ∧ (receiving [0x32] 0).tLast = 0) := by decide

theorem test_witness_O24 :
    (receiving (zeros 1) 0).fsm = .receiving ∧ 1 ≤ (receiving (zeros 1) 0).len ∧
    (receiving (zeros 1) 0).len + (List.replicate 12 (0x34 : Byte)).length ≤ 13 ∧ ¬ (receiving (zeros 1) 0).late 499 ∧
    List.replicate 12 (0x34 : Byte) ≠ [] := by decide

/-- A passing, a failing and an unrecognised frame one byte before their end, in a reachable sequencing state. -/
theorem test_witness_O25 :
    ∀ f ∈ [frameA, frameB, frameU], (atEnd f).fsm = .receiving ∧ (atEnd f).len = 13 ∧ (atEnd f).SequencingOk ∧
      ¬ (atEnd f).late 499 := by decide

theorem test_witness_O26 :
    (receiving (zeros 13) 0).fsm = .receiving ∧ (receiving (zeros 13) 0).len = 13 ∧ (0x32 : Byte) ≠ 0x34 ∧
    ¬ (receiving (zeros 13) 0).late 499 := by decide

theorem test_witness_O27 :
    (atEnd frameB).fsm = .receiving ∧ ¬ (atEnd frameB).late 499 ∧ frameB.endByte = 0x34 ∧ frameU.endByte = 0x34 ∧
    (validate frameB).1 = false ∧ (validate frameU).1 = true ∧
    ¬(frameU.source = 0x20 ∧ frameU.destination = 0x84 ∧ frameU.command = 0x52) := by decide

/-- Each cause of a move of FSM: the start sentinel, the completion, the timeout by TICK and by a noise byte, and a
reset. -/
theorem test_witness_O28 :
    (State.SequencingOk (withInputs State.reset [byteEdge 7 false 0x32]) ∧
      (nextOf (step (withInputs State.reset [byteEdge 7 false 0x32]))).map State.fsm = some .receiving) ∧
    ((atEnd frameA).SequencingOk ∧
      ∀ e ∈ [byteEdge 499 false 0x34, byteEdge 499 false 0x33, tickEdge 500 false, byteEdge 500 false 0x33, resetEdge],
        (nextOf (step (withInputs (atEnd frameA) [e]))).map State.fsm = some .idle) ∧
    ((receiving (zeros 12) 0).SequencingOk ∧
      ∀ e ∈ [byteEdge 499 false 0x34, byteEdge 500 false 0x32, tickEdge 499 false],
        (nextOf (step (withInputs (receiving (zeros 12) 0) [e]))).map State.fsm = some .receiving) := by decide

/-- P5's wrap with 499 and with 500 units between the readings, the least and the greatest distance. -/
theorem test_witness_O29 :
    (receiving [0x32, 0x20] 4294967000).fsm = .receiving ∧
    (receiving [0x32, 0x20] 4294967000).tLast = BitVec.ofNat 32 4294967000 ∧
    ∀ d ∈ [0, 499, 500, 4294967295], 4294967000 ≤ 4294967000 + d ∧ 4294967000 + d < 4294967000 + 2 ^ 32 := by decide

theorem test_witness_O30 :
    exec (.byte 499 0x20 false) (receiving [0x32] 0) = .next (receiving [0x32, 0x20] 499) := by rfl

/-- LEN 1 with thirteen BYTE edges, LEN 13 with one, and a late edge. -/
theorem test_witness_O31 :
    ((receiving (zeros 1) 0).SequencingOk ∧
      (∀ e ∈ batch 499 false (List.replicate 13 0x00), e.rst = false ∧ e.stepEn = true) ∧
      14 - (receiving (zeros 1) 0).len ≤
        ((batch 499 false (List.replicate 13 0x00)).filter (fun e => e.ports.rxValid)).length) ∧
    ((receiving (zeros 13) 0).SequencingOk ∧
      14 - (receiving (zeros 13) 0).len ≤ ((batch 499 false [0x00]).filter (fun e => e.ports.rxValid)).length) ∧
    (withInputs (receiving (zeros 1) 0) [tickEdge 500 false]).late (tickEdge 500 false).ports.now := by decide

/-- A step from a state that meets the invariant, by each kind of edge. -/
theorem test_witness_O32 :
    (atEnd frameB).Inv ∧ ∀ e ∈ [byteEdge 499 true 0x34, tickEdge 500 false, idleEdge ⟨0, 0, false⟩, resetEdge],
      (nextOf (step (withInputs (atEnd frameB) [e]))).isSome = true := by decide

theorem test_witness_O34 : (atEnd frameA).SequencingOk ∧ (atEnd frameA).len = 13 ∧ RunsTo 0 (atEnd frameA) (atEnd frameA) :=
  ⟨by decide, by decide, rfl⟩

/-- The store changes by the completion of S-A, and a second time by a reset. -/
theorem test_witness_O36 :
    (nextOf (step (withInputs (atEnd frameA) [byteEdge 499 false 0x34]))).map (fun t => decide (t.store ≠ none)) =
      some true ∧
    (nextOf (step { withInputs State.reset [resetEdge] with store := some ⟨0, 0, 0, 0, false, true, 0⟩ })).map
      (fun t => decide (t.store ≠ some ⟨0, 0, 0, 0, false, true, 0⟩)) = some true ∧
    ((byteEdge 499 false 0x34).rst = false ∧ (byteEdge 499 false 0x34).stepEn = true ∧
      (byteEdge 499 false 0x34).ports.rxValid = true ∧ (byteEdge 499 false 0x34).ports.rxData = 0x34 ∧
      (atEnd frameA).fsm = .receiving ∧ ¬ (atEnd frameA).late 499 ∧ (atEnd frameA).buf ++ [0x34] = frameA.toBytes ∧
      frameA.start = 0x32 ∧ xorSum frameA = frameA.checksum ∧
      frameA.source = 0x20 ∧ frameA.destination = 0x84 ∧ frameA.command = 0x52) := by decide

theorem test_witness_O37 :
    (withInputs (atEnd frameA) [byteEdge 499 true 0x34]).withoutDbg =
      (withInputs (atEnd frameA) [byteEdge 499 false 0x34]).withoutDbg ∧
    ∀ d ∈ [true, false], (nextOf (step (withInputs (atEnd frameA) [byteEdge 499 d 0x34]))).isSome = true := by decide

theorem test_witness_O38 :
    State.reset.fsm = .idle ∧
    RunsTo 1 (withInputs State.reset [byteEdge 7 false 0x32]) (receiving [0x32] 7) ∧
    RunsTo 1 { withInputs State.reset [byteEdge 7 false 0x32] with tLast := 99 } (receiving [0x32] 7) :=
  ⟨rfl, rfl, rfl⟩

theorem test_witness_O39 :
    (withInputs (receiving [0x32] 0) [⟨true, true, ⟨0, 0x132, false⟩⟩]).inputs = ⟨true, true, ⟨0, 0x132, false⟩⟩ :: [] := by
  decide

theorem test_witness_O40 :
    (withInputs (receiving [0x32] 0) [idleEdge ⟨900, 0x132, true⟩]).inputs = idleEdge ⟨900, 0x132, true⟩ :: [] ∧
    (idleEdge ⟨900, 0x132, true⟩).rst = false ∧ (idleEdge ⟨900, 0x132, true⟩).stepEn = false ∧
    State.reset.inputs = [] := by decide

theorem test_witness_O41 :
    (stepEdge ⟨7, 0x132, false⟩).rst = false ∧ (stepEdge ⟨7, 0x132, false⟩).stepEn = true ∧
    decode .step (.word (stepEdge ⟨7, 0x132, false⟩).ports) = .ok (.byte 7 0x32 false) ∧
    decode .step (.word (stepEdge ⟨7, 0x032, false⟩).ports) = .ok (.tick 7) ∧
    decodeTableWord 16 0x132 = some (.byte 0 0x32 false) := by decide

theorem test_witness_O42 :
    ((atEnd frameA).fsm = .receiving ∧ (atEnd frameA).buf ++ [0x34] = frameA.toBytes ∧
      decodeFrame frameA = .ok (.frameStatus52 payloadA)) ∧
    ((atEnd frameU).fsm = .receiving ∧ (atEnd frameU).buf ++ [0x34] = frameU.toBytes ∧
      decodeFrame frameU = .ok (.frameUnrecognised 0x84 0x20 0x52 payloadA)) ∧
    decodeTableWord 112 0x3220845200000000000000000034 = some (.frameStatus52 ⟨0, 0, 0, 0, 0, 0, 0, 0⟩) :=
  ⟨by decide, by decide, rfl⟩

/-- All six shapes of the log occur, from states that meet the sequencing invariant. -/
theorem test_witness_O43 :
    (receiving (zeros 13) 0).SequencingOk ∧
    (nextOf (exec (.byte 500 0x00 false) (receiving (zeros 13) 0))).map State.log = some [.timeout (zeros 13)] ∧
    (nextOf (exec (.byte 499 0x00 false) (receiving (zeros 13) 0))).map State.log =
      some [.overrun (zeros 13 ++ [0x00])] ∧
    ((nextOf (exec (.byte 499 0x34 false) (atEnd frameB))).map State.log = some [.checksumFail frameB 0x41 0xBE] ∧
     (nextOf (exec (.byte 499 0x34 true) (atEnd frameA))).map State.log = some [.dump frameA] ∧
     (nextOf (exec (.byte 499 0x34 true) (atEnd frameB))).map State.log =
       some [.dump frameB, .checksumFail frameB 0x41 0xBE] ∧
     (nextOf (exec (.byte 499 0x34 false) (atEnd frameA))).map State.log = some []) := by decide

theorem test_witness_O44 : (zeros 13).length ≤ 13 ∧ (zeros 14).length = 14 := by decide

/-- The three ways into the recovery: a timeout by TICK, an overrun, a checksum failure. -/
theorem test_witness_O46 :
    (receiving (zeros 13) 0).SequencingOk ∧ (atEnd frameB).SequencingOk ∧
    (nextOf (exec (.tick 500) (receiving (zeros 13) 0))).map (fun t => decide (t.log ≠ [])) = some true ∧
    (nextOf (exec (.byte 499 0x00 false) (receiving (zeros 13) 0))).map (fun t => t.log.map LogRecord.code) = some [2] ∧
    (nextOf (exec (.byte 499 0x34 true) (atEnd frameB))).map (fun t => t.log.map LogRecord.code) = some [0, 3] ∧
    ¬ (receiving (zeros 13) 0).late 499 ∧ ∀ x ∈ ([0x20, 0x34] : List Byte), x ≠ 0x32 := by decide

/-- The five refusals at the boundary: IDLE or RECEIVING, LEN 12 or 13. -/
theorem test_witness_O47 :
    (receiving (zeros 1) 0).fsm = .receiving ∧ ¬(State.reset.fsm = .idle ∧ (0x32 : Byte) ≠ 0x32) ∧
    ¬((receiving (zeros 13) 0).fsm = .receiving ∧ (receiving (zeros 13) 0).len ≤ 12) ∧
    ¬((receiving (zeros 12) 0).fsm = .receiving ∧ (receiving (zeros 12) 0).len = 13) ∧
    ¬((receiving (zeros 13) 0).fsm = .receiving ∧ 13 ≤ (receiving (zeros 13) 0).len ∧
      ¬((receiving (zeros 13) 0).len = 13 ∧ (0x34 : Byte) = 0x34)) := by decide

/-- T-TMO-9: gaps of 499. -/
theorem test_witness_O48 :
    State.reset.fsm = .idle ∧ frameA.start = 0x32 ∧ frameA.endByte = 0x34 ∧
    ((List.range 13).map (fun k => BitVec.ofNat 32 (499 * k))).length = 13 ∧
    ∀ k, k < 13 → (BitVec.ofNat 32 (499 * (k + 1)) - BitVec.ofNat 32 (499 * k)).toNat < 500 := by decide

/-- Each form of the statement answers a next state somewhere. -/
theorem test_witness_O49 :
    State.reset.SequencingOk ∧ (receiving (zeros 12) 0).SequencingOk ∧ (atEnd frameA).SequencingOk ∧
    (∀ i ∈ [Instr.byteIdleStart, .byteIdleNoise 0x34, .frameStatus52 payloadA, .frameUnrecognised 1 2 3 payloadA,
        .tick 500], (nextOf (exec i State.reset)).isSome = true) ∧
    (nextOf (exec (.byteRecvFill 0x34) (receiving (zeros 12) 0))).isSome = true ∧
    (∀ i ∈ [Instr.byteRecvEnd true, .byteRecvOverrun 0x33, .tick 500],
      (nextOf (exec i (atEnd frameA))).isSome = true) ∧ (atEnd frameA).late 500 := by decide

theorem test_witness_O50 :
    exec (.frameStatus52 payloadA) State.reset = .next { State.reset with store := some (decodedFields payloadA) } ∧
    (0x21 : Byte) ≠ 0x20 ∧ State.reset.stValid = false := ⟨rfl, by decide, by decide⟩

/-- Three reads with two edges between them, neither a step nor a reset, with an entry and without one. -/
theorem test_witness_O51 :
    (∀ e ∈ [idleEdge ⟨0, 0x132, true⟩, idleEdge ⟨900, 0, false⟩], e.rst = false ∧ e.stepEn = false) ∧
    (List.map TimedRead.wait [⟨1, 0x20, .powerOn⟩, ⟨1, 0x20, .fanSpeed⟩]).sum = 2 ∧
    (afterEdges 1 (withInputs (atEnd frameA)
      [byteEdge 499 false 0x34, idleEdge ⟨0, 0x132, true⟩, idleEdge ⟨900, 0, false⟩])).store =
        some ⟨0, 0, 0, 0, false, true, 0⟩ ∧
    (afterEdges 0 State.reset).store = none := by decide

/-- The store holds T-DEC-1's fields when S-A completes: one entry read before, one after. -/
theorem test_witness_O52 :
    (atEnd frameA).fsm = .receiving ∧ (atEnd frameA).buf ++ [0x34] = frameA.toBytes ∧ ¬ (atEnd frameA).late 499 ∧
    frameA.start = 0x32 ∧ xorSum frameA = frameA.checksum ∧
    frameA.source = 0x20 ∧ frameA.destination = 0x84 ∧ frameA.command = 0x52 ∧
    (∀ x ∈ [FieldName.setTemperature], x ∉ FieldName.roomTemperature :: []) ∧
    readerSamples [⟨0, 0x20, .setTemperature⟩, ⟨1, 0x20, .roomTemperature⟩]
      { withInputs (atEnd frameA) [byteEdge 499 false 0x34] with
        store := some (decodedFields ⟨0, 0, 0, 0, 0, 0, 0, 0⟩) } =
      [⟨true, some (.temperature 0xC9)⟩, ⟨true, some (.temperature 0x00)⟩] := by decide

end Sys2Proof.Tests
end

section
/-! PROOFS. Totality (spec/00_scope.md R13): no step refuses, although `exec` refuses a sub-operation asked for outside
its state. The step decoder yields only TICK and BYTE, and BYTE runs the sub-operation that its own state selects. -/

namespace Sys2Proof.Machine

theorem bytePhase_answers (b : Byte) (dbg : Bool) (s : State) : ∃ t, bytePhase b dbg s = .next t := by
  rcases bytePhase_cases b dbg s with
    ⟨_, _, start⟩ | ⟨_, _, noise⟩ | ⟨_, _, fill⟩ | ⟨_, _, _, _, _, complete⟩ | ⟨_, _, _, overrun⟩
  · exact ⟨_, start⟩
  · exact ⟨_, noise⟩
  · exact ⟨_, fill⟩
  · exact ⟨_, complete⟩
  · exact ⟨_, overrun⟩

/-- What the step decoder selects always answers, for every word and operands (R90). -/
theorem exec_decodeStep_answers (p : StepPorts) (s : State) : ∃ t, exec (decodeStep p) s = .next t := by
  unfold decodeStep
  split
  case isTrue => exact bytePhase_answers p.rxData p.dbg (byteCommon p.now s)
  case isFalse => exact ⟨timeoutPhase p.now (beginStep s), rfl⟩

theorem step_answers (s : State) : ∃ t, step s = .next t := by
  rcases step_cases s with ⟨_, noEdge⟩ | ⟨e, rest, _, ⟨_, reset⟩ | ⟨_, _, idle⟩ | ⟨_, _, strobe⟩⟩
  · exact ⟨_, noEdge⟩
  · exact ⟨_, reset⟩
  · exact ⟨_, idle⟩
  · rw [strobe]
    exact exec_decodeStep_answers e.ports { s with inputs := rest }

theorem RunsTo.exists_of_length (n : Nat) (s : State) : ∃ t, RunsTo n s t := by
  induction n generalizing s with
  | zero => exact ⟨s, RunsTo.zero s⟩
  | succ n ih =>
    obtain ⟨u, hstep⟩ := step_answers s
    obtain ⟨t, hrun⟩ := ih u
    exact ⟨t, RunsTo.cons hstep hrun⟩

/-- Settles O35: every step answers, so by induction every number of steps does. -/
theorem noRunFaultsOrRefuses : Obligations.NoRunFaultsOrRefuses :=
  fun s n => RunsTo.exists_of_length n s

end Sys2Proof.Machine
end

section
/-! PROOFS. What a step can lead to, with its two phases told apart (spec/40_reassembler.md R100): one constructor
for each kind of edge, and one for each sub-operation of the byte phase. -/

namespace Sys2Proof.Machine

/-- Everything the byte phase can lead to from `s`, one constructor per sub-operation (R107). -/
inductive BytePhaseTo (b : Byte) (dbg : Bool) (s : State) : State → Prop
  | start (idle : s.fsm = .idle) (isStart : b = Config.START) : BytePhaseTo b dbg s (startBuffer s)
  | noise (idle : s.fsm = .idle) (noStart : b ≠ Config.START) : BytePhaseTo b dbg s s
  | fill (recv : s.fsm = .receiving) (short : s.len + 1 < 14) : BytePhaseTo b dbg s (appendByte b s)
  | complete (f : Frame) (recv : s.fsm = .receiving) (isEnd : b = Config.END) (bytes : s.buf ++ [b] = f.toBytes) :
      BytePhaseTo b dbg s (emitted f dbg (clearBuffer s))
  | overrun (recv : s.fsm = .receiving) (full : 14 ≤ s.len + 1) (noEnd : ¬(s.len = 13 ∧ b = Config.END)) :
      BytePhaseTo b dbg s { s with fsm := .idle, buf := [], log := s.log ++ [.overrun (s.buf ++ [b])] }

theorem bytePhaseTo_of_bytePhase {b : Byte} {dbg : Bool} {s t : State} (h : bytePhase b dbg s = .next t) :
    BytePhaseTo b dbg s t := by
  rcases bytePhase_cases b dbg s with
    ⟨idle, isStart, e⟩ | ⟨idle, noStart, e⟩ | ⟨recv, short, e⟩ | ⟨f, recv, _, isEnd, bytes, e⟩ |
    ⟨recv, full, noEnd, e⟩ <;>
    cases e.symm.trans h
  · exact .start idle isStart
  · exact .noise idle noStart
  · exact .fill recv short
  · exact .complete f recv isEnd bytes
  · exact .overrun recv full noEnd

/-- Everything one step can lead to from `s`, one constructor per kind of edge (10_state.md R20, R100). -/
inductive StepTo (s : State) : State → Prop
  | noEdge (noInput : s.inputs = []) : StepTo s s
  | reset {e : Edge} {rest : List Edge} (edge : s.inputs = e :: rest) (rst : e.rst = true) :
      StepTo s (applyReset { s with inputs := rest })
  | idle {e : Edge} {rest : List Edge} (edge : s.inputs = e :: rest) (rst : e.rst = false) (en : e.stepEn = false) :
      StepTo s { s with inputs := rest }
  | tick {e : Edge} {rest : List Edge} (edge : s.inputs = e :: rest) (rst : e.rst = false) (en : e.stepEn = true)
      (noByte : e.ports.rxValid = false) :
      StepTo s (timeoutPhase e.ports.now (beginStep { s with inputs := rest }))
  | byte {e : Edge} {rest : List Edge} {t : State} (edge : s.inputs = e :: rest) (rst : e.rst = false)
      (en : e.stepEn = true) (hasByte : e.ports.rxValid = true)
      (phase : BytePhaseTo e.ports.rxData e.ports.dbg (byteCommon e.ports.now { s with inputs := rest }) t) :
      StepTo s t

theorem stepTo_of_step {s t : State} (h : step s = .next t) : StepTo s t := by
  rcases step_cases s with ⟨noInput, e⟩ | ⟨e, rest, edge, ⟨rst, eq⟩ | ⟨rst, en, eq⟩ | ⟨rst, en, eq⟩⟩
  · cases e.symm.trans h
    exact .noEdge noInput
  · cases eq.symm.trans h
    exact .reset edge rst
  · cases eq.symm.trans h
    exact .idle edge rst en
  · rw [eq] at h
    cases hv : e.ports.rxValid with
    | false =>
      rw [decodeStep, if_neg (by simp [hv])] at h
      cases h
      exact .tick edge rst en hv
    | true =>
      rw [decodeStep, if_pos hv] at h
      exact .byte edge rst en hv (bytePhaseTo_of_bytePhase h)

/-! What the timeout phase and BYTE's common part leave. -/

@[simp] theorem timeoutPhase_store (now : Time) (s : State) : (timeoutPhase now s).store = s.store := by
  rcases timeoutPhase_cases now s with ⟨_, e⟩ | ⟨_, e⟩ <;> rw [e]

@[simp] theorem byteCommon_store (now : Time) (s : State) : (byteCommon now s).store = s.store := by
  simp [byteCommon]

/-- A BYTE step that is still RECEIVING at its byte phase was not late, and has the buffer of before. -/
theorem byteCommon_receiving {now : Time} {s : State} (h : (byteCommon now s).fsm = .receiving) :
    s.fsm = .receiving ∧ ¬ s.late now ∧ (byteCommon now s).buf = s.buf := by
  rcases byteCommon_cases now s with ⟨_, e⟩ | ⟨early, e⟩ <;> rw [e] at h ⊢
  · cases h
  · exact ⟨h, fun late => by simp [(late_iff s now).1 late] at early, rfl⟩

end Sys2Proof.Machine
end

section
/-! PROOFS. The sequencing invariant (spec/10_state.md R34, R35) and the bound it puts on the buffer (R36). -/

namespace Sys2Proof.Machine

theorem State.SequencingOk.of_cleared {s : State} (idle : s.fsm = .idle) (empty : s.buf = []) : s.SequencingOk := by
  simp [State.SequencingOk, len_eq, idle, empty]

theorem State.SequencingOk.len_le {s : State} (h : s.SequencingOk) : s.len ≤ 13 := by
  obtain ⟨idle_iff, recv⟩ := h
  cases hf : s.fsm with
  | idle => have := idle_iff.1 hf; omega
  | receiving => exact (recv hf).2.1

/-- In RECEIVING, whatever byte is appended, offset 0 stays the start sentinel. -/
theorem State.SequencingOk.appendByte_starts {s : State} (h : s.SequencingOk) (recv : s.fsm = .receiving) (b : Byte) :
    memRead (appendByte b s) 0 = some Config.START := by
  obtain ⟨nonempty, _, starts⟩ := h.2 recv
  rw [memRead_appendByte, if_neg (by omega), starts]

theorem startBuffer_keeps_sequencing (s : State) : (startBuffer s).SequencingOk := by
  simp [State.SequencingOk, memRead]

theorem appendByte_keeps_sequencing {s : State} (b : Byte) (h : s.SequencingOk) (recv : s.fsm = .receiving)
    (short : s.len + 1 < 14) : (appendByte b s).SequencingOk := by
  refine ⟨by simp [recv], fun _ => ⟨?_, ?_, h.appendByte_starts recv b⟩⟩ <;> rw [appendByte_len] <;> omega

theorem timeoutPhase_keeps_sequencing (now : Time) {s : State} (h : s.SequencingOk) :
    (timeoutPhase now s).SequencingOk := by
  rcases timeoutPhase_cases now s with ⟨_, e⟩ | ⟨_, e⟩ <;> rw [e]
  · exact .of_cleared rfl rfl
  · exact h

theorem byteCommon_keeps_sequencing (now : Time) {s : State} (h : s.SequencingOk) : (byteCommon now s).SequencingOk :=
  timeoutPhase_keeps_sequencing now (s := beginStep s) h

theorem bytePhase_keeps_sequencing {b : Byte} {dbg : Bool} {s t : State} (h : s.SequencingOk)
    (phase : BytePhaseTo b dbg s t) : t.SequencingOk := by
  cases phase with
  | start => exact startBuffer_keeps_sequencing s
  | noise => exact h
  | fill recv short => exact appendByte_keeps_sequencing b h recv short
  | complete => exact .of_cleared rfl rfl
  | overrun => exact .of_cleared rfl rfl

theorem step_keeps_sequencing {s t : State} (h : s.SequencingOk) (hstep : step s = .next t) : t.SequencingOk := by
  cases stepTo_of_step hstep with
  | noEdge => exact h
  | reset => exact .of_cleared rfl rfl
  | idle => exact h
  | tick => exact timeoutPhase_keeps_sequencing _ h
  | @byte e rest _ _ _ _ _ phase =>
    have taken : State.SequencingOk { s with inputs := rest } := h
    exact bytePhase_keeps_sequencing (byteCommon_keeps_sequencing _ taken) phase

/-- Settles O34: the sequencing invariant holds along the run, it bounds `LEN` by 13, and an append adds one. -/
theorem bufferNeverHoldsMoreThanFourteen : Obligations.BufferNeverHoldsMoreThanFourteen := by
  intro s t n hs hrun
  have ht : t.SequencingOk := hrun.invariant (fun _ _ => step_keeps_sequencing) hs
  exact ⟨ht.len_le, fun b => by rw [appendByte_len]; exact Nat.succ_le_succ ht.len_le⟩

end Sys2Proof.Machine
end

section
/-! PROOFS. What writes the State Store (spec/10_state.md R38; 43_state_store.md R170): a reset, or a BYTE step that
completes a valid frame with the recognised key. -/

namespace Sys2Proof.Machine

theorem hasRecognisedKey_iff (f : Frame) :
    f.hasRecognisedKey = true ↔ f.source = 0x20 ∧ f.destination = 0x84 ∧ f.command = 0x52 := by
  simp [Frame.hasRecognisedKey, isRecognisedKey, Config.ADDR_INDOOR_1, Config.ADDR_WIRED_REMOTE, Config.CMD_STATUS,
    and_assoc]

theorem emitted_store_of_recognised {f : Frame} (dbg : Bool) (s : State) (valid : (validate f).1 = true)
    (key : f.hasRecognisedKey = true) : (emitted f dbg s).store = some (decodedFields f.payload) := by
  simp [emitted, valid, key]

theorem emitted_store_cases (f : Frame) (dbg : Bool) (s : State) :
    (emitted f dbg s).store = s.store ∨
    ((validate f).1 = true ∧ f.hasRecognisedKey = true ∧
      (emitted f dbg s).store = some (decodedFields f.payload)) := by
  by_cases h : (validate f).1 = true ∧ f.hasRecognisedKey = true
  · exact .inr ⟨h.1, h.2, emitted_store_of_recognised dbg s h.1 h.2⟩
  · exact .inl (if_neg (by simpa using h))

/-- On the edge `e` the state completes the frame `f`, which is valid and has the recognised key. -/
structure CompletesRecognised (e : Edge) (f : Frame) (s : State) : Prop where
  rst : e.rst = false
  stepEn : e.stepEn = true
  hasByte : e.ports.rxValid = true
  isEnd : e.ports.rxData = Config.END
  recv : s.fsm = .receiving
  early : ¬ s.late e.ports.now
  bytes : s.buf ++ [Config.END] = f.toBytes
  valid : (validate f).1 = true
  key : f.hasRecognisedKey = true

theorem bytePhase_store_cases {b : Byte} {dbg : Bool} {s t : State} (phase : BytePhaseTo b dbg s t) :
    t.store = s.store ∨
    ∃ f : Frame, s.fsm = .receiving ∧ b = Config.END ∧ s.buf ++ [Config.END] = f.toBytes ∧
      (validate f).1 = true ∧ f.hasRecognisedKey = true ∧ t.store = some (decodedFields f.payload) := by
  cases phase with
  | start | noise | fill | overrun => exact .inl rfl
  | complete f recv isEnd bytes =>
    rcases emitted_store_cases f dbg (clearBuffer s) with kept | ⟨valid, key, written⟩
    · exact .inl kept
    · exact .inr ⟨f, recv, isEnd, isEnd ▸ bytes, valid, key, written⟩

/-- Everything a step can do to the store. -/
theorem step_store_cases {s t : State} (h : step s = .next t) :
    t.store = s.store ∨
    ∃ e rest, s.inputs = e :: rest ∧
      ((e.rst = true ∧ t.store = none) ∨
       ∃ f, CompletesRecognised e f s ∧ t.store = some (decodedFields f.payload)) := by
  cases stepTo_of_step h with
  | noEdge => exact .inl rfl
  | reset edge rst => exact .inr ⟨_, _, edge, .inl ⟨rst, rfl⟩⟩
  | idle => exact .inl rfl
  | tick => exact .inl (timeoutPhase_store _ _)
  | byte edge rst en hasByte phase =>
    rcases bytePhase_store_cases phase with kept | ⟨f, recv, isEnd, bytes, valid, key, written⟩
    · exact .inl (kept.trans (byteCommon_store _ _))
    · obtain ⟨wasRecv, early, sameBuf⟩ := byteCommon_receiving recv
      rw [sameBuf] at bytes
      exact .inr ⟨_, _, edge, .inr
        ⟨f, ⟨rst, en, hasByte, isEnd, wasRecv, early, bytes, valid, key⟩, written⟩⟩

/-- The byte that makes the buffer a frame runs `Emit` on that frame (R113). -/
theorem bytePhase_of_frame {s : State} {f : Frame} (dbg : Bool) (recv : s.fsm = .receiving)
    (bytes : s.buf ++ [Config.END] = f.toBytes) :
    bytePhase Config.END dbg s = .next (emitted f dbg (clearBuffer s)) := by
  have len : s.len = 13 := (Frame.endByte_of_append bytes).2
  have selected : selectByteOp s.fsm s.len Config.END = .recvEnd := by rw [recv, len]; rfl
  rw [bytePhase, selected]
  exact execByteRecvEnd_of_frame dbg recv bytes

theorem step_of_completesRecognised {s : State} {e : Edge} {rest : List Edge} {f : Frame}
    (edge : s.inputs = e :: rest) (h : CompletesRecognised e f s) :
    ∃ t, step s = .next t ∧ t.store = some (decodedFields f.payload) := by
  refine ⟨emitted f e.ports.dbg (clearBuffer { s with inputs := rest, tLast := e.ports.now, log := [] }), ?_,
    emitted_store_of_recognised _ _ h.valid h.key⟩
  have decoded : decodeStep e.ports = .byte e.ports.now Config.END e.ports.dbg := by
    rw [decodeStep, if_pos h.hasByte, h.isEnd]
  calc step s
      = exec (decodeStep e.ports) { s with inputs := rest } := by simp [step_edge edge, clockEdge, h.rst, h.stepEn]
    _ = bytePhase Config.END e.ports.dbg { s with inputs := rest, tLast := e.ports.now, log := [] } := by
        rw [decoded, exec_byte_not_late (s := { s with inputs := rest }) _ _ h.early]
    _ = _ := bytePhase_of_frame _ h.recv h.bytes

/-- Settles O36: a step's effect on the store is `step_store_cases`, and a completion always has that effect. -/
theorem storeChangesOnlyByARecognisedFrame : Obligations.StoreChangesOnlyByARecognisedFrame := by
  constructor
  · intro s t hstep changed
    obtain ⟨e, rest, edge, reset | ⟨f, done, written⟩⟩ := (step_store_cases hstep).resolve_left changed
    · exact ⟨e, rest, edge, .inl reset⟩
    · obtain ⟨checksum, start⟩ := (validate_pass_iff f).1 done.valid
      obtain ⟨source, destination, command⟩ := (hasRecognisedKey_iff f).1 done.key
      exact ⟨e, rest, edge, .inr ⟨done.rst, done.stepEn, done.hasByte, done.isEnd, done.recv, done.early,
        f, done.bytes, start, checksum, source, destination, command, written⟩⟩
  · intro s e rest f edge rst en hasByte isEnd recv early bytes start checksum source destination command
    have valid : (validate f).1 = true := (validate_pass_iff f).2 ⟨checksum, start⟩
    have key : f.hasRecognisedKey = true := (hasRecognisedKey_iff f).2 ⟨source, destination, command⟩
    obtain ⟨t, hstep, written⟩ :=
      step_of_completesRecognised edge ⟨rst, en, hasByte, isEnd, recv, early, bytes, valid, key⟩
    exact ⟨t, hstep, written, by simp [State.stValid, written]⟩

end Sys2Proof.Machine
end

section
/-! PROOFS. The whole invariant: beside the sequencing, the range of the store (spec/10_state.md R30) and the shape of
the log (spec/43_state_store.md R178, R180). -/

namespace Sys2Proof.Machine

/-! The store. -/

/-- A 7-bit magnitude less 55 lies in -55 to 72, so the 8-bit register holds it exactly (R85). -/
theorem tempDecode_inRange (r : BitVec 7) : tempInRange (tempDecode r) := by
  have magnitude : r.toNat < 128 := r.isLt
  have toInt_eq : (tempDecode r).toInt = r.toNat - 55 := by
    rw [tempDecode, BitVec.toInt_ofInt, Int.bmod_def]
    simp only [Config.TEMP_OFFSET]
    omega
  rw [tempInRange, toInt_eq]
  omega

theorem decodedFields_inRange (p : Payload) : (decodedFields p).InRange :=
  ⟨tempDecode_inRange _, tempDecode_inRange _, tempDecode_inRange _⟩

theorem step_keeps_storeOk {s t : State} (h : storeOk s.store = true) (hstep : step s = .next t) :
    storeOk t.store = true := by
  rcases step_store_cases hstep with kept | ⟨_, _, _, ⟨_, cleared⟩ | ⟨f, _, written⟩⟩
  · rw [kept]; exact h
  · rw [cleared]; rfl
  · rw [written]; exact decide_eq_true (decodedFields_inRange f.payload)

/-! The log. A timeout leaves IDLE, so only the two silent or opening sub-operations can follow its record. -/

/-- Between the two phases of a step: the log is in shape, and empty while RECEIVING. -/
def State.TimedLogOk (s : State) : Prop := logOk s.log = true ∧ (s.fsm = .receiving → s.log = [])

theorem timeoutPhase_timedLogOk (now : Time) {s : State} (h : s.SequencingOk) :
    (timeoutPhase now (beginStep s)).TimedLogOk := by
  rcases timeoutPhase_cases now (beginStep s) with ⟨fires, e⟩ | ⟨_, e⟩ <;> rw [e]
  · have recv : s.fsm = .receiving := ((timeoutFires_iff now (beginStep s)).1 fires).1
    exact ⟨decide_eq_true (h.2 recv), fun idle => by cases idle⟩
  · exact ⟨rfl, fun _ => rfl⟩

/-- What a buffer that met the invariant completes is a candidate frame (R73). -/
theorem isCandidate_of_completes {s : State} {f : Frame} (h : s.SequencingOk) (recv : s.fsm = .receiving)
    (bytes : s.buf ++ [Config.END] = f.toBytes) : f.isCandidate = true := by
  have start : f.start = Config.START :=
    Option.some.inj ((Frame.start_of_toBytes bytes.symm).symm.trans (h.appendByte_starts recv Config.END))
  have isEnd : f.endByte = Config.END := (Frame.endByte_of_append bytes).1.symm
  simp [Frame.isCandidate, start, isEnd]

theorem checksumFail_ok {f : Frame} (candidate : f.isCandidate = true) (invalid : (validate f).1 = false) :
    (LogRecord.checksumFail f (xorSum f) f.checksum).ok = true := by
  have start : f.start = Config.START := by
    simp only [Frame.isCandidate, Bool.and_eq_true, beq_iff_eq] at candidate
    exact candidate.1
  have unequal : xorSum f ≠ f.checksum := fun equal => by
    rw [(validate_pass_iff f).2 ⟨equal, start⟩] at invalid
    cases invalid
  simp [LogRecord.ok, candidate, unequal]

/-- `Emit` on an empty log writes one of R180's shapes, by the debug level and the verdict. -/
theorem emitted_logOk {f : Frame} (dbg : Bool) {s : State} (empty : s.log = []) (candidate : f.isCandidate = true) :
    logOk (emitted f dbg s).log = true := by
  cases hv : (validate f).1 with
  | true => cases dbg <;> simp [emitted, empty, hv, logOk, LogRecord.ok, candidate]
  | false => cases dbg <;> simp [emitted, empty, hv, logOk, checksumFail_ok candidate hv]

theorem overrun_ok {s : State} {b : Byte} (h : s.SequencingOk) (recv : s.fsm = .receiving) (full : 14 ≤ s.len + 1)
    (noEnd : ¬(s.len = 13 ∧ b = Config.END)) : (LogRecord.overrun (appendByte b s).buf).ok = true := by
  have len : s.len = 13 := by have := h.len_le; omega
  have last : memRead (appendByte b s) 13 = some b := by rw [memRead_appendByte, if_pos len.symm]
  refine decide_eq_true ⟨?_, h.appendByte_starts recv b, ?_⟩
  · rw [← len_eq, appendByte_len, len]
  · rw [← memRead, last]
    exact fun isEnd => noEnd ⟨len, Option.some.inj isEnd⟩

theorem bytePhase_logOk {b : Byte} {dbg : Bool} {s t : State} (h : s.SequencingOk) (hlog : s.TimedLogOk)
    (phase : BytePhaseTo b dbg s t) : logOk t.log = true := by
  obtain ⟨shape, empty⟩ := hlog
  cases phase with
  | start | noise | fill => exact shape
  | complete f recv isEnd bytes =>
    exact emitted_logOk dbg (s := clearBuffer s) (empty recv) (isCandidate_of_completes h recv (isEnd ▸ bytes))
  | overrun recv full noEnd =>
    rw [empty recv]
    exact overrun_ok h recv full noEnd

theorem step_keeps_logOk {s t : State} (h : s.SequencingOk) (hlog : logOk s.log = true) (hstep : step s = .next t) :
    logOk t.log = true := by
  cases stepTo_of_step hstep with
  | noEdge => exact hlog
  | reset => rfl
  | idle => exact hlog
  | @tick e rest => exact (timeoutPhase_timedLogOk (s := { s with inputs := rest }) _ h).1
  | @byte e rest _ _ _ _ _ phase =>
    have taken : State.SequencingOk { s with inputs := rest } := h
    exact bytePhase_logOk (byteCommon_keeps_sequencing _ taken) (timeoutPhase_timedLogOk _ taken) phase

/-! The invariant. -/

theorem applyReset_inv (s : State) : (applyReset s).Inv := ⟨.of_cleared rfl rfl, rfl, rfl⟩

/-- Settles O33: the reset state with pending inputs is what a reset leaves. -/
theorem resetStateMeetsTheInvariant : Obligations.ResetStateMeetsTheInvariant :=
  fun inputs => ⟨applyReset_inv { State.reset with inputs := inputs }, rfl, rfl, rfl, rfl, rfl⟩

/-- Settles O32: each of the three parts is kept; the log's part rests on the sequencing. -/
theorem everyStepKeepsTheInvariant : Obligations.EveryStepKeepsTheInvariant := by
  intro s t ⟨sequencing, log, store⟩ hstep
  exact ⟨step_keeps_sequencing sequencing hstep, step_keeps_logOk sequencing log hstep,
    step_keeps_storeOk store hstep⟩

end Sys2Proof.Machine
end

section
/-! PROOFS. In IDLE nothing reads `T_LAST` (spec/10_state.md R28, R45; 40_reassembler.md R107): the timeout test wants
RECEIVING, and every byte stores the clock reading before RECEIVING is entered. -/

namespace Sys2Proof.Machine

/-- A relation that one step from each side keeps holds after runs of equal length. -/
theorem RunsTo.relation {R : State → State → Prop}
    (hstep : ∀ s s' t t', R s s' → step s = .next t → step s' = .next t' → R t t') {n : Nat} {s s' t t' : State}
    (h : R s s') (run : RunsTo n s t) (run' : RunsTo n s' t') : R t t' := by
  induction n generalizing s s' with
  | zero => cases run.of_zero; cases run'.of_zero; exact h
  | succ n ih =>
    obtain ⟨u, hu, rest⟩ := RunsTo.succ_iff.1 run
    obtain ⟨u', hu', rest'⟩ := RunsTo.succ_iff.1 run'
    exact ih (hstep s s' u u' h hu hu') rest rest'

/-- The states are equal, or both in IDLE and equal but for `T_LAST`. -/
def EqUpToIdleTLast (s s' : State) : Prop := s' = s ∨ (s.fsm = .idle ∧ ∃ v, s' = setTLast v s)

theorem EqUpToIdleTLast.eq_setTLast {s s' : State} (h : EqUpToIdleTLast s s') : s' = setTLast s'.tLast s := by
  rcases h with rfl | ⟨_, v, rfl⟩ <;> rfl

theorem EqUpToIdleTLast.eq_of_receiving {s s' : State} (h : EqUpToIdleTLast s s') (recv : s.fsm = .receiving) :
    s' = s := by
  rcases h with same | ⟨idle, _⟩
  · exact same
  · cases idle.symm.trans recv

theorem timeoutPhase_of_idle {s : State} (now : Time) (idle : s.fsm = .idle) : timeoutPhase now s = s := by
  simp [timeoutPhase, timeoutFires, idle]

/-- From IDLE, BYTE overwrites whatever `T_LAST` was before anything reads it. -/
theorem byteCommon_setTLast_of_idle {s : State} (now v : Time) (idle : s.fsm = .idle) :
    byteCommon now (setTLast v s) = byteCommon now s := by
  rw [byteCommon, byteCommon, timeoutPhase_of_idle now (s := beginStep s) idle,
    timeoutPhase_of_idle now (s := beginStep (setTLast v s)) idle]
  rfl

theorem exec_tick_of_idle {s : State} (now : Time) (idle : s.fsm = .idle) : exec (.tick now) s = .next (beginStep s) :=
  congrArg _ (timeoutPhase_of_idle now (s := beginStep s) idle)

theorem exec_byte_setTLast_of_idle {s : State} (now v : Time) (b : Byte) (dbg : Bool) (idle : s.fsm = .idle) :
    exec (.byte now b dbg) (setTLast v s) = exec (.byte now b dbg) s :=
  congrArg (bytePhase b dbg) (byteCommon_setTLast_of_idle now v idle)

/-- From IDLE, an edge either drops `T_LAST` (a reset, a byte) or stays in IDLE and passes it on unread. -/
theorem clockEdge_setTLast_of_idle {s : State} (e : Edge) (v : Time) (idle : s.fsm = .idle) :
    clockEdge e (setTLast v s) = clockEdge e s ∨
    ∃ u, u.fsm = .idle ∧ clockEdge e s = .next u ∧ clockEdge e (setTLast v s) = .next (setTLast v u) := by
  cases rst : e.rst with
  | true => exact .inl (by simp [clockEdge, rst, applyReset])
  | false =>
    cases en : e.stepEn with
    | false => exact .inr ⟨s, idle, by simp [clockEdge, rst, en], by simp [clockEdge, rst, en]⟩
    | true =>
      have strobe (u : State) : clockEdge e u = exec (decodeStep e.ports) u := by simp [clockEdge, rst, en]
      rw [strobe, strobe]
      unfold decodeStep
      split
      case isTrue => exact .inl (exec_byte_setTLast_of_idle _ v _ _ idle)
      case isFalse =>
        exact .inr ⟨beginStep s, idle, exec_tick_of_idle _ idle, exec_tick_of_idle (s := setTLast v s) _ idle⟩

theorem step_keeps_eqUpToIdleTLast {s s' t t' : State} (h : EqUpToIdleTLast s s') (hstep : step s = .next t)
    (hstep' : step s' = .next t') : EqUpToIdleTLast t t' := by
  rcases h with rfl | ⟨idle, v, rfl⟩
  · cases hstep.symm.trans hstep'
    exact .inl rfl
  · cases edge : s.inputs with
    | nil =>
      cases (step_no_input edge).symm.trans hstep
      cases (step_no_input (s := setTLast v s) edge).symm.trans hstep'
      exact .inr ⟨idle, v, rfl⟩
    | cons e rest =>
      have edge' : (setTLast v s).inputs = e :: rest := edge
      rw [step_edge edge] at hstep
      rw [step_edge edge'] at hstep'
      rcases clockEdge_setTLast_of_idle (s := { s with inputs := rest }) e v idle with
        same | ⟨u, idle', eq, eq'⟩
      · cases hstep.symm.trans (same.symm.trans hstep')
        exact .inl rfl
      · cases eq.symm.trans hstep
        cases eq'.symm.trans hstep'
        exact .inr ⟨idle', v, rfl⟩

/-- Settles O38: the two runs stay equal up to the `T_LAST` of IDLE. -/
theorem tLastIsUnobservableInIdle : Obligations.TLastIsUnobservableInIdle := by
  intro n s t t' v idle run run'
  have related : EqUpToIdleTLast t t' :=
    RunsTo.relation (fun _ _ _ _ => step_keeps_eqUpToIdleTLast) (.inr ⟨idle, v, rfl⟩) run run'
  exact ⟨related.eq_setTLast, related.eq_of_receiving⟩

end Sys2Proof.Machine
end

section
/-! PROOFS. Edges that carry no step (spec/10_state.md R20). -/

namespace Sys2Proof.Machine

/-- Settles O40: such an edge is only taken from the list; with none pending there is nothing to take. -/
theorem edgeWithoutStepChangesNothing : Obligations.EdgeWithoutStepChangesNothing := by
  constructor
  · intro s e rest edge rst en
    simp [step_edge edge, clockEdge, rst, en]
  · intro s noInput
    exact step_no_input noInput

end Sys2Proof.Machine
end

section
/-! PROOFS. What an answer of each meaning says, for the meanings that can also refuse (spec/30_encoding.md R82, R83):
the guard held, and this is the next state. -/

namespace Sys2Proof.Machine

/-- A guarded meaning answers exactly where its guard holds. -/
theorem guarded_eq_next_iff {c : Prop} [Decidable c] {u t : State} {r : Refusal} :
    (if c then .next u else .refused r : Host.Outcome State Fault Refusal) = .next t ↔ c ∧ u = t := by
  by_cases h : c <;> simp [h]

theorem exec_byteIdleStart_eq_next_iff {s t : State} :
    exec .byteIdleStart s = .next t ↔ s.fsm = .idle ∧ startBuffer s = t := guarded_eq_next_iff

theorem exec_byteIdleNoise_eq_next_iff {b : Byte} {s t : State} :
    exec (.byteIdleNoise b) s = .next t ↔ (s.fsm = .idle ∧ b ≠ Config.START) ∧ s = t := guarded_eq_next_iff

theorem exec_byteRecvFill_eq_next_iff {b : Byte} {s t : State} :
    exec (.byteRecvFill b) s = .next t ↔ (s.fsm = .receiving ∧ s.len + 1 < 14) ∧ appendByte b s = t :=
  guarded_eq_next_iff

theorem exec_byteRecvOverrun_eq_next_iff {b : Byte} {s t : State} :
    exec (.byteRecvOverrun b) s = .next t ↔
      (s.fsm = .receiving ∧ 14 ≤ s.len + 1 ∧ ¬(s.len + 1 = 14 ∧ b = Config.END)) ∧
      raise .overrun (appendByte b s) = t := guarded_eq_next_iff

theorem exec_byteRecvEnd_eq_next_iff {dbg : Bool} {s t : State} :
    exec (.byteRecvEnd dbg) s = .next t ↔
      ∃ f : Frame, s.fsm = .receiving ∧ s.buf ++ [Config.END] = f.toBytes ∧ emitted f dbg (clearBuffer s) = t := by
  constructor
  · intro h
    change execByteRecvEnd dbg s = .next t at h
    unfold execByteRecvEnd at h
    split at h
    · next f recv read =>
      rw [emit_eq] at h
      cases h
      exact ⟨f, recv, Frame.ofBytes?_eq_some.1 read, rfl⟩
    · cases h
  · rintro ⟨f, recv, bytes, rfl⟩
    exact execByteRecvEnd_of_frame dbg recv bytes

/-- The no-op refuses the recognised key, and changes nothing for any other. -/
theorem eq_of_exec_frameUnrecognised {source destination command : Byte} {p : Payload} {s t : State}
    (h : exec (.frameUnrecognised source destination command p) s = .next t) : t = s := by
  change execFrameUnrecognised source destination command p s = .next t at h
  unfold execFrameUnrecognised at h
  split at h
  · cases h
  · cases h; rfl

/-- TICK keeps the buffer in a step that is not late, and empties it in a late one (R105, R106). -/
theorem exec_tick_buf {now : Time} {s t : State} (h : exec (.tick now) s = .next t) :
    t.buf = if s.late now then [] else s.buf := by
  rcases execTick_cases now s with ⟨fires, e⟩ | ⟨quiet, e⟩ <;> cases e.symm.trans h
  · rw [if_pos ((late_iff s now).2 fires)]
  · rw [if_neg (by rw [late_iff, quiet]; decide)]

end Sys2Proof.Machine
end

section
/-! PROOFS. The frame of the buffer (spec/20_memory.md R50, R59): which offsets an instruction stores to. -/

namespace Sys2Proof.Machine

theorem memRead_congr {s t : State} (h : t.buf = s.buf) (a : Nat) : memRead t a = memRead s a := by
  rw [memRead, memRead, h]

theorem memRead_of_empty {s : State} (h : s.buf = []) (a : Nat) : memRead s a = none := by
  simp [memRead, h]

/-- Exactly one byte is stored between the two states: `b` at offset `LEN`. -/
def StoresAtLen (b : Byte) (s t : State) : Prop :=
  memRead t s.len = some b ∧ ∀ a, a ≠ s.len → memRead t a = memRead s a

theorem appendByte_storesAtLen (b : Byte) (s : State) : StoresAtLen b s (appendByte b s) :=
  ⟨by rw [memRead_appendByte, if_pos rfl], fun a other => by rw [memRead_appendByte, if_neg other]⟩

/-- Opening a buffer is an append to an empty one: in IDLE the sequencing invariant has `LEN` 0. -/
theorem startBuffer_storesAtLen {s : State} (h : s.SequencingOk) (idle : s.fsm = .idle) :
    StoresAtLen Config.START s (startBuffer s) := by
  have empty : s.buf = [] := List.eq_nil_of_length_eq_zero (h.1.1 idle)
  have appended : (startBuffer s).buf = (appendByte Config.START s).buf := by
    rw [startBuffer_buf, appendByte_buf, empty, List.nil_append]
  obtain ⟨stored, others⟩ := appendByte_storesAtLen Config.START s
  exact ⟨(memRead_congr appended _).trans stored, fun a other => (memRead_congr appended a).trans (others a other)⟩

/-- Settles O49: each answer names the next state, and its buffer is an append, the old one, or empty. -/
theorem onlyStartAndFillStoreABufferByte : Obligations.OnlyStartAndFillStoreABufferByte := by
  intro s t b dbg now p x y z sequencing
  refine ⟨fun h => ?start, fun h => ?fill, fun h => ?noise, fun h => ?status52, fun h => ?unrecognised,
    fun h early => ?tick, fun h => ?complete, fun h => ?overrun, fun h late => ?lateTick⟩
  case start =>
    obtain ⟨idle, rfl⟩ := exec_byteIdleStart_eq_next_iff.1 h
    exact startBuffer_storesAtLen sequencing idle
  case fill =>
    obtain ⟨-, rfl⟩ := exec_byteRecvFill_eq_next_iff.1 h
    exact appendByte_storesAtLen b s
  case noise =>
    obtain ⟨-, rfl⟩ := exec_byteIdleNoise_eq_next_iff.1 h
    exact fun _ => rfl
  case status52 =>
    cases h
    exact memRead_congr (writeStore_buf _ s)
  case unrecognised =>
    cases eq_of_exec_frameUnrecognised h
    exact fun _ => rfl
  case tick => exact memRead_congr ((exec_tick_buf h).trans (if_neg early))
  case complete =>
    obtain ⟨f, -, -, rfl⟩ := exec_byteRecvEnd_eq_next_iff.1 h
    exact memRead_of_empty rfl
  case overrun =>
    obtain ⟨-, rfl⟩ := exec_byteRecvOverrun_eq_next_iff.1 h
    exact memRead_of_empty rfl
  case lateTick => exact memRead_of_empty ((exec_tick_buf h).trans (if_pos late))

end Sys2Proof.Machine
end

section
/-! PROOFS. One snapshot (spec/20_memory.md R61, R63): an edge without a step or a reset is only taken from the list,
so a reader that lets such edges pass still samples the same store. -/

namespace Sys2Proof.Machine

theorem sampleEntry_of_store_some {s : State} {v : StoreFields} (h : s.store = some v) (name : FieldName) :
    s.sampleEntry 0x20 name = ⟨true, some (v.get name)⟩ := by
  simp [State.sampleEntry, State.stValid, State.readStore, Config.ADDR_INDOOR_1, h]

theorem sampleEntry_of_store_none {s : State} (h : s.store = none) (unit : Byte) (name : FieldName) :
    s.sampleEntry unit name = ⟨false, none⟩ := by
  simp [State.sampleEntry, State.stValid, State.readStore, h]

theorem afterEdges_of_no_step {n : Nat} {s : State}
    (quiet : ∀ e ∈ s.inputs.take n, e.rst = false ∧ e.stepEn = false) :
    afterEdges n s = { s with inputs := s.inputs.drop n } := by
  induction n generalizing s with
  | zero => rfl
  | succ n ih =>
    cases edge : s.inputs with
    | nil => rw [afterEdges_no_input edge, List.drop_nil, ← edge]
    | cons e rest =>
      rw [edge, List.take_succ_cons, List.forall_mem_cons] at quiet
      obtain ⟨⟨rst, en⟩, quietRest⟩ := quiet
      rw [afterEdges_succ n (edgeWithoutStepChangesNothing.1 s e rest edge rst en),
        ih (s := { s with inputs := rest }) quietRest]
      rfl

theorem readerSamples_of_no_step {rs : List TimedRead} {s : State}
    (quiet : ∀ e ∈ s.inputs.take (rs.map TimedRead.wait).sum, e.rst = false ∧ e.stepEn = false) :
    readerSamples rs s = rs.map (fun x => s.sampleEntry x.unit x.name) := by
  induction rs generalizing s with
  | nil => rfl
  | cons r rs ih =>
    rw [List.map_cons, List.sum_cons, List.take_add, List.forall_mem_append] at quiet
    obtain ⟨quietWait, quietRest⟩ := quiet
    rw [readerSamples_cons, afterEdges_of_no_step quietWait, ih (s := { s with inputs := _ }) quietRest]
    rfl

/-- Settles O51: the first read's state is the one every later read samples. -/
theorem readsBetweenTheSameStepsAreOneSnapshot : Obligations.ReadsBetweenTheSameStepsAreOneSnapshot := by
  intro s r rs quiet
  have snapshot : readerSamples (r :: rs) s =
      (r :: rs).map (fun x => (afterEdges r.wait s).sampleEntry x.unit x.name) := by
    rw [readerSamples_cons, readerSamples_of_no_step quiet, List.map_cons]
  refine ⟨snapshot, fun v present units => ?_, fun absent => ?_⟩
  · rw [snapshot]
    exact List.map_congr_left fun x mem => by rw [units x mem, sampleEntry_of_store_some present]
  · rw [snapshot]
    exact List.map_congr_left fun x _ => sampleEntry_of_store_none absent x.unit x.name

end Sys2Proof.Machine
end

section
/-! PROOFS. The torn read (spec/20_memory.md R63; 70_reset_and_hazards.md R256). Every mixture of the fields of two
payloads is itself the decode of one payload, because no payload bit is read by two fields
(42_frame_decoder.md R144 to R150); so no set of samples shows that it is torn. -/

namespace Sys2Proof.Machine

/-- One byte that carries `a` under the mask `m` and `b` under the mask `m'`. -/
def mixByte (m m' a b : Byte) : Byte := (a &&& m) ||| (b &&& m')

theorem mixByte_and_left {m m' : Byte} (disjoint : m' &&& m = 0) (a b : Byte) : mixByte m m' a b &&& m = a &&& m := by
  simp [mixByte, BitVec.and_or_distrib_right, BitVec.and_assoc, disjoint]

theorem mixByte_and_right {m m' : Byte} (disjoint : m &&& m' = 0) (a b : Byte) :
    mixByte m m' a b &&& m' = b &&& m' := by
  simp [mixByte, BitVec.and_or_distrib_right, BitVec.and_assoc, disjoint]

/-- A payload that decodes each field as the payload chosen for that field does. The two bytes that carry two fields
each are put together under the fields' masks; offsets 9 to 11 carry none (R80). -/
def mixPayload (pick : FieldName → Payload) : Payload where
  p0 := (pick .setTemperature).p0
  p1 := (pick .roomTemperature).p1
  p2 := (pick .pipeInTemperature).p2
  p3 := mixByte Config.FAN_MASK Config.SWING_MASK (pick .fanSpeed).p3 (pick .bladeSwing).p3
  p4 := mixByte Config.POWER_MASK Config.SOURCE_MASK (pick .powerOn).p4 (pick .remoteControlSource).p4
  p5 := 0
  p6 := 0
  p7 := 0

theorem decodedFields_mixPayload_get (pick : FieldName → Payload) (name : FieldName) :
    (decodedFields (mixPayload pick)).get name = (decodedFields (pick name)).get name := by
  cases name with
  | setTemperature | roomTemperature | pipeInTemperature => rfl
  | fanSpeed =>
    simp only [StoreFields.get, decodedFields, mixPayload, fanSpeedOf]
    rw [mixByte_and_left (by decide)]
  | bladeSwing =>
    simp only [StoreFields.get, decodedFields, mixPayload, bladeSwingOf]
    rw [mixByte_and_right (by decide)]
  | powerOn =>
    simp only [StoreFields.get, decodedFields, mixPayload, powerOnOf]
    rw [mixByte_and_left (by decide)]
  | remoteControlSource =>
    simp only [StoreFields.get, decodedFields, mixPayload, remoteControlSourceOf]
    rw [mixByte_and_right (by decide)]

/-- Two payloads' fields, those of `names` from the second, are the fields of one payload. -/
theorem exists_payload_mixing (p p' : Payload) (names : List FieldName) :
    ∃ q : Payload,
      (∀ x, x ∉ names → (decodedFields q).get x = (decodedFields p).get x) ∧
      (∀ x ∈ names, (decodedFields q).get x = (decodedFields p').get x) := by
  refine ⟨mixPayload fun x => if x ∈ names then p' else p, fun x out => ?_, fun x mem => ?_⟩
  · rw [decodedFields_mixPayload_get, if_neg out]
  · rw [decodedFields_mixPayload_get, if_pos mem]

/-- Some entries read, one edge let pass, other entries read: the former show the store before the edge, the latter
the store after it. -/
theorem readerSamples_across_edge {s : State} {v w : StoreFields} (before : s.store = some v)
    (after : (afterEdges 1 s).store = some w) (early : List FieldName) (n : FieldName) (later : List FieldName) :
    readerSamples (readsAtOnce 0x20 early ++ ⟨1, 0x20, n⟩ :: readsAtOnce 0x20 later) s =
      early.map (fun x => ⟨true, some (v.get x)⟩) ++ (n :: later).map (fun x => ⟨true, some (w.get x)⟩) := by
  have rest := readerSamples_readsAtOnce 0x20 later [] (afterEdges 1 s)
  simp only [List.append_nil, readerSamples_nil] at rest
  rw [readerSamples_readsAtOnce, readerSamples_cons, rest, List.map_cons, sampleEntry_of_store_some after]
  exact congrArg₂ _ (List.map_congr_left fun x _ => sampleEntry_of_store_some before x)
    (congrArg _ (List.map_congr_left fun x _ => sampleEntry_of_store_some after x))

theorem completesRecognised_byteEdge {s : State} {f : Frame} {now : Time} (dbg : Bool) (recv : s.fsm = .receiving)
    (early : ¬ s.late now) (bytes : s.buf ++ [Config.END] = f.toBytes) (valid : (validate f).1 = true)
    (key : f.hasRecognisedKey = true) : CompletesRecognised (byteEdge now dbg Config.END) f s where
  rst := rfl
  stepEn := rfl
  hasByte := stepWord_rxValid _ _ _ _
  isEnd := stepWord_rxData _ _ _ _
  recv := recv
  early := early
  bytes := bytes
  valid := valid
  key := key

/-- Settles O52: the step's decode separates the two halves, and a mixed payload held over an idle edge gives the
same samples. -/
theorem readsAcrossADecodeMixFramesUndetectably : Obligations.ReadsAcrossADecodeMixFramesUndetectably := by
  intro s p f now dbg rest n early later before recv bytes notLate start checksum source destination command edge apart
  have valid : (validate f).1 = true := (validate_pass_iff f).2 ⟨checksum, start⟩
  have key : f.hasRecognisedKey = true := (hasRecognisedKey_iff f).2 ⟨source, destination, command⟩
  obtain ⟨u, hstep, written⟩ :=
    step_of_completesRecognised edge (completesRecognised_byteEdge dbg recv notLate bytes valid key)
  have after : (afterEdges 1 s).store = some (decodedFields f.payload) := by
    rw [afterEdges_succ 0 hstep, afterEdges_zero, written]
  have torn := readerSamples_across_edge before after early n later
  refine ⟨torn, ?_⟩
  obtain ⟨q, asEarlier, asLater⟩ := exists_payload_mixing p f.payload (n :: later)
  refine ⟨q, fun t ports rest' held idle => ?_⟩
  have still : (afterEdges 1 t).store = some (decodedFields q) := by
    rw [afterEdges_succ 0 (edgeWithoutStepChangesNothing.1 t _ rest' idle rfl rfl)]
    exact held
  rw [readerSamples_across_edge held still, torn,
    List.map_congr_left fun x mem => by rw [asEarlier x (apart x mem)],
    List.map_congr_left fun x (mem : x ∈ n :: later) => by rw [asLater x mem]]

end Sys2Proof.Machine
end

section
/-! PROOFS. Decode and encode (spec/30_encoding.md R70 to R72, R82, R83): the encodings are told apart by their format,
a step word or a frame, and each decoder is the inverse of its format's encoder. -/

namespace Sys2Proof

/-- Some level at which the row applies (R82, R96). -/
def Instr.level : Instr → DecodeLevel
  | .tick _ | .byte _ _ _ | .frameStatus52 _ | .frameUnrecognised _ _ _ _ => .step
  | .byteIdleStart | .byteIdleNoise _ => .bytePhase .idle 0
  | .byteRecvFill _ => .bytePhase .receiving 1
  | .byteRecvEnd _ | .byteRecvOverrun _ => .bytePhase .receiving 13

theorem appliesAt_level (i : Instr) : appliesAt i i.level = true := by
  cases i <;> rfl

/-! The step decoder's second level, by the sub-operation's condition. -/

theorem selectByteOp_noise {b : Byte} (noStart : b ≠ Config.START) (len : Nat) :
    selectByteOp .idle len b = .idleNoise :=
  if_neg noStart

theorem selectByteOp_fill {len : Nat} (short : len + 1 < 14) (b : Byte) :
    selectByteOp .receiving len b = .recvFill :=
  (if_neg fun full : len + 1 = 14 ∧ b = Config.END => by omega).trans (if_neg (Nat.not_le.2 short))

theorem selectByteOp_end {len : Nat} (full : len + 1 = 14) : selectByteOp .receiving len Config.END = .recvEnd :=
  if_pos ⟨full, rfl⟩

theorem selectByteOp_overrun {len : Nat} {b : Byte} (full : 14 ≤ len + 1) (noEnd : ¬(len + 1 = 14 ∧ b = Config.END)) :
    selectByteOp .receiving len b = .recvOverrun :=
  (if_neg noEnd).trans (if_pos full)

/-- The byte phase reads back a step word that carries a byte. -/
theorem decode_bytePhase_stepWord (fsm : Fsm) (len : Nat) (now : Time) (b : Byte) (dbg : Bool) :
    decode (.bytePhase fsm len) (.word ⟨now, stepWord true b, dbg⟩) = .ok ((selectByteOp fsm len b).toInstr b dbg) := by
  simp only [decode, stepWord_rxValid, stepWord_rxData, if_true]

/-- The frame decoder reads back a frame put together from its key and payload (R83, R95). -/
theorem decodeFrame_build (source destination command : Byte) (payload : Payload) :
    decodeFrame (Frame.build source destination command payload) =
      if isRecognisedKey source destination command then .ok (.frameStatus52 payload)
      else .ok (.frameUnrecognised source destination command payload) :=
  decodeFrame_of_valid rfl rfl (Frame.build_pass source destination command payload)

theorem decode_frame (level : DecodeLevel) (f : Frame) : decode level (.frame f) = decodeFrame f := rfl

/-- Along the rows of R82 and R83, each at the levels where it applies. -/
theorem decode_encode : ∀ {i : Instr} {level : DecodeLevel}, wellFormed i = true → appliesAt i level = true →
    decode level (encode i) = .ok i
  | .tick now, .step, _, _ => congrArg _ (decodeStep_stepWord false 0 now false)
  | .byte now b dbg, .step, _, _ => congrArg _ (decodeStep_stepWord true b now dbg)
  | .byteIdleStart, .bytePhase .idle len, _, _ => decode_bytePhase_stepWord .idle len 0 Config.START false
  | .byteIdleNoise b, .bytePhase .idle len, wf, _ => by
    rw [encode, decode_bytePhase_stepWord, selectByteOp_noise (bne_iff_ne.1 wf), ByteOp.toInstr]
  | .byteRecvFill b, .bytePhase .receiving len, _, applies => by
    rw [encode, decode_bytePhase_stepWord, selectByteOp_fill (of_decide_eq_true applies), ByteOp.toInstr]
  | .byteRecvEnd dbg, .bytePhase .receiving len, _, applies => by
    rw [encode, decode_bytePhase_stepWord, selectByteOp_end (of_decide_eq_true applies), ByteOp.toInstr]
  | .byteRecvOverrun b, .bytePhase .receiving len, wf, applies => by
    have noEnd : b ≠ Config.END := bne_iff_ne.1 wf
    rw [encode, decode_bytePhase_stepWord,
      selectByteOp_overrun (of_decide_eq_true applies) fun last => noEnd last.2, ByteOp.toInstr]
  | .frameStatus52 payload, level, _, _ => by
    rw [encode, decode_frame, decodeFrame_build, if_pos (by decide)]
  | .frameUnrecognised source destination command payload, level, wf, _ => by
    have other : ¬ isRecognisedKey source destination command = true := by simpa [wellFormed] using wf
    rw [encode, decode_frame, decodeFrame_build, if_neg other]

/-- Settles O1: each row applies at the level of R82's condition, and `decode_encode` splits along the rows. -/
theorem decodeOfEncodeIsTheInstruction : Obligations.DecodeOfEncodeIsTheInstruction :=
  ⟨fun i => ⟨i.level, appliesAt_level i⟩, fun _ _ => decode_encode⟩

/-! What a decoder accepts. -/

/-- The step decoder's first level is undone by the encoder, but for the ports that TICK does not read (R71). -/
theorem encode_decodeStep (p : StepPorts) :
    encode (decodeStep p) = .word (if p.rxValid then p else ⟨p.now, 0, false⟩) := by
  unfold decodeStep
  split
  case isTrue valid => rw [encode, ← valid, stepWord_ports]
  case isFalse => rfl

/-- A sub-operation that a state of at most 13 bytes selects is well formed, and its row applies there. -/
theorem selectByteOp_toInstr_sound (fsm : Fsm) {len : Nat} (bound : len ≤ 13) (b : Byte) (dbg : Bool) :
    wellFormed ((selectByteOp fsm len b).toInstr b dbg) = true ∧
    appliesAt ((selectByteOp fsm len b).toInstr b dbg) (.bytePhase fsm len) = true := by
  rcases selectByteOp_cases fsm len b with
    ⟨rfl, -, selected⟩ | ⟨rfl, noStart, selected⟩ | ⟨rfl, short, selected⟩ | ⟨rfl, full, -, selected⟩ |
    ⟨rfl, full, noEnd, selected⟩ <;> rw [selected]
  · exact ⟨rfl, rfl⟩
  · exact ⟨bne_iff_ne.2 noStart, rfl⟩
  · exact ⟨rfl, decide_eq_true short⟩
  · exact ⟨rfl, decide_eq_true full⟩
  · exact ⟨bne_iff_ne.2 fun isEnd => noEnd ⟨by omega, isEnd⟩, decide_eq_true full⟩

/-- A valid frame is the one that `FRAME(...)` puts together from its key and payload (R73, R95). -/
theorem Frame.build_of_valid {f : Frame} (start : f.start = Config.START) (isEnd : f.endByte = Config.END)
    (valid : (validate f).1 = true) : Frame.build f.source f.destination f.command f.payload = f := by
  have checksum : xorSum f = f.checksum := ((validate_pass_iff f).1 valid).1
  calc Frame.build f.source f.destination f.command f.payload
      = { f with start := Config.START, checksum := xorSum f, endByte := Config.END } := rfl
    _ = f := by rw [checksum, ← start, ← isEnd]

/-- What the frame decoder accepts is well formed and encodes back to the frame. -/
theorem decodeFrame_sound {f : Frame} {i : Instr} (h : decodeFrame f = .ok i) :
    wellFormed i = true ∧ (∀ level, appliesAt i level = true) ∧ encode i = .frame f := by
  obtain ⟨start, isEnd, valid, ⟨key, rfl⟩ | ⟨key, rfl⟩⟩ := decodeFrame_ok h
  · obtain ⟨source, destination, command⟩ := (Machine.hasRecognisedKey_iff f).1 key
    have built := Frame.build_of_valid start isEnd valid
    rw [source, destination, command] at built
    exact ⟨rfl, fun _ => rfl, congrArg _ built⟩
  · have other : isRecognisedKey f.source f.destination f.command = false := key
    exact ⟨by rw [wellFormed, other]; rfl, fun _ => rfl, congrArg _ (Frame.build_of_valid start isEnd valid)⟩

/-- Settles O2, for each format: a frame at any level, a word at the first level, a word at the byte phase. -/
theorem decodedFormsAreWellFormedAndCanonical : Obligations.DecodedFormsAreWellFormedAndCanonical := by
  intro level e i bound h
  cases e with
  | frame f =>
    obtain ⟨wf, applies, encoded⟩ := decodeFrame_sound h
    exact ⟨wf, applies level, fun _ same => same ▸ encoded, nofun, nofun⟩
  | word p =>
    cases level with
    | step =>
      cases h
      have encoded := encode_decodeStep p
      refine ⟨?wf, ?applies, nofun, ?byte, ?tick⟩
      case wf => unfold decodeStep; split <;> rfl
      case applies => unfold decodeStep; split <;> rfl
      case byte =>
        rintro _ ⟨⟩ - valid
        rw [encoded, if_pos valid]
      case tick =>
        rintro _ ⟨⟩ - noByte
        rw [encoded, if_neg (by simp [noByte])]
    | bytePhase fsm len =>
      simp only [decode] at h
      split at h
      · cases h
        obtain ⟨wf, applies⟩ := selectByteOp_toInstr_sound fsm (bound fsm len rfl) p.rxData p.dbg
        exact ⟨wf, applies, nofun, nofun, nofun⟩
      · cases h

/-- Settles O3: the step decoder gives TICK or BYTE, and both always answer. -/
theorem everyStepWordIsAcceptedInEveryState : Obligations.EveryStepWordIsAcceptedInEveryState :=
  fun w now dbg s => Machine.exec_decodeStep_answers ⟨now, w, dbg⟩ s

/-! The frame decoder's rejections (R73; U10). -/

theorem decodeFrame_badStart {f : Frame} (noStart : f.start ≠ Config.START) : decodeFrame f = .error .badStart :=
  if_pos noStart

theorem decodeFrame_badEnd {f : Frame} (start : f.start = Config.START) (noEnd : f.endByte ≠ Config.END) :
    decodeFrame f = .error .badEnd :=
  (if_neg (not_not_intro start)).trans (if_pos noEnd)

theorem decodeFrame_badChecksum {f : Frame} (start : f.start = Config.START) (isEnd : f.endByte = Config.END)
    (differs : xorSum f ≠ f.checksum) : decodeFrame f = .error .badChecksum := by
  have invalid : (validate f).1 = false :=
    Bool.eq_false_iff.2 fun pass => differs ((validate_pass_iff f).1 pass).1
  rw [decodeFrame, if_neg (not_not_intro start), if_neg (not_not_intro isEnd), if_pos invalid]

/-- Settles O4: three rejections, and for a valid frame the choice by the key. -/
theorem frameDecoderAcceptsExactlyTheValidFrames : Obligations.FrameDecoderAcceptsExactlyTheValidFrames := by
  intro f
  refine ⟨decodeFrame_badStart, decodeFrame_badEnd, decodeFrame_badChecksum, fun start isEnd checksum => ?_⟩
  have decoded := decodeFrame_of_valid start isEnd ((validate_pass_iff f).2 ⟨checksum, start⟩)
  have recognised := Machine.hasRecognisedKey_iff f
  exact ⟨fun key => decoded.trans (if_pos (recognised.2 key)),
    fun other => decoded.trans (if_neg (mt recognised.1 other))⟩

end Sys2Proof
end

section
/-! PROOFS. The opcode table (spec/30_encoding.md R82, R96): what its match and mask fields test on a step word, and the
row it gives in each state condition. -/

namespace Sys2Proof

theorem stepWord_inj {v w : Bool} {b c : Byte} : stepWord v b = stepWord w c ↔ v = w ∧ b = c := by
  constructor
  · intro h
    have valid := stepWord_rxValid v b 0 false
    have data := stepWord_rxData v b 0 false
    rw [h, stepWord_rxValid] at valid
    rw [h, stepWord_rxData] at data
    exact ⟨valid.symm, data.symm⟩
  · rintro ⟨rfl, rfl⟩; rfl

/-! The rows' tests: bit 8 alone, or all nine bits (R71). -/

@[simp] theorem stepWord_fits_byte (v : Bool) (b : Byte) : (stepWord v b &&& 0x100#9 == 0x100#9) = v := by
  revert v b; decide

@[simp] theorem stepWord_fits_tick (v : Bool) (b : Byte) : (stepWord v b &&& 0x100#9 == 0x000#9) = !v := by
  revert v b; decide

theorem stepWord_fits_word (v : Bool) (b c : Byte) : (stepWord v b &&& 0x1FF#9 == stepWord true c) = (v && b == c) := by
  have whole : stepWord v b &&& 0x1FF#9 = stepWord v b := BitVec.and_allOnes
  rw [whole, Bool.eq_iff_iff]
  simp [stepWord_inj]

@[simp] theorem stepWord_fits_start (v : Bool) (b : Byte) : (stepWord v b &&& 0x1FF#9 == 0x132#9) =
    (v && b == Config.START) :=
  stepWord_fits_word v b Config.START

@[simp] theorem stepWord_fits_end (v : Bool) (b : Byte) : (stepWord v b &&& 0x1FF#9 == 0x134#9) =
    (v && b == Config.END) :=
  stepWord_fits_word v b Config.END

theorem tableLookup_step (v : Bool) (b : Byte) :
    tableLookup .step (stepWord v b) = some (if v then "BYTE" else "TICK") := by
  cases v <;> simp [tableLookup, stepRows, StepRow.at, List.find?]

/-- No row of a byte phase fits a step word without a byte: each of them fixes bit 8 to 1. -/
theorem tableLookup_bytePhase_noByte (fsm : Fsm) (len : Nat) (b : Byte) :
    tableLookup (.bytePhase fsm len) (stepWord false b) = none := by
  simp [tableLookup, stepRows, StepRow.at, List.find?]

theorem tableLookup_idle (b : Byte) :
    tableLookup (.bytePhase .idle 0) (stepWord true b) =
      some (if b = Config.START then "BYTE.IDLE.START" else "BYTE.IDLE.NOISE") := by
  by_cases isStart : b = Config.START <;>
    simp [tableLookup, stepRows, StepRow.at, List.find?, isStart, beq_false_of_ne]

theorem tableLookup_receiving_short {len : Nat} (nonempty : 1 ≤ len) (short : len ≤ 12) (b : Byte) :
    tableLookup (.bytePhase .receiving len) (stepWord true b) = some "BYTE.RECV.FILL" := by
  simp [tableLookup, stepRows, StepRow.at, List.find?, nonempty, short]

theorem tableLookup_receiving_full (b : Byte) :
    tableLookup (.bytePhase .receiving 13) (stepWord true b) =
      some (if b = Config.END then "BYTE.RECV.END" else "BYTE.RECV.OVERRUN") := by
  by_cases isEnd : b = Config.END <;>
    simp [tableLookup, stepRows, StepRow.at, List.find?, isEnd, beq_false_of_ne]

/-- The table gives a byte the row of the sub-operation that R82 selects, in every state it has a condition for. -/
theorem tableLookup_selected {fsm : Fsm} {len : Nat}
    (inTable : fsm = .idle ∧ len = 0 ∨ fsm = .receiving ∧ 1 ≤ len ∧ len ≤ 13) (b : Byte) (dbg : Bool) :
    tableLookup (.bytePhase fsm len) (stepWord true b) =
      some ((selectByteOp fsm len b).toInstr b dbg).mnemonic := by
  rcases inTable with ⟨rfl, rfl⟩ | ⟨rfl, nonempty, bound⟩
  · rw [tableLookup_idle, selectByteOp]
    split <;> rfl
  · rcases Nat.lt_or_eq_of_le bound with short | rfl
    · rw [tableLookup_receiving_short nonempty (Nat.le_of_lt_succ short), selectByteOp_fill (Nat.succ_lt_succ short)]
      rfl
    · rw [tableLookup_receiving_full]
      by_cases isEnd : b = Config.END
      · rw [isEnd, selectByteOp_end rfl]; rfl
      · rw [if_neg isEnd, selectByteOp_overrun (Nat.le_refl 14) fun last => isEnd last.2]; rfl

/-- The decoder's answer and the table's row agree on this step word: one mnemonic, or both have none. -/
def AgreesWithTable (level : DecodeLevel) (p : StepPorts) : Prop :=
  (∀ i, decode level (.word p) = .ok i → tableLookup level p.word = some i.mnemonic) ∧
  (∀ r, decode level (.word p) = .error r → tableLookup level p.word = none)

theorem AgreesWithTable.of_ok {level : DecodeLevel} {p : StepPorts} {i : Instr} (ok : decode level (.word p) = .ok i)
    (row : tableLookup level p.word = some i.mnemonic) : AgreesWithTable level p := by
  refine ⟨fun j h => ?_, fun r h => ?_⟩ <;> cases ok.symm.trans h
  exact row

theorem AgreesWithTable.of_error {level : DecodeLevel} {p : StepPorts} {r : Reject}
    (error : decode level (.word p) = .error r) (noRow : tableLookup level p.word = none) :
    AgreesWithTable level p := by
  refine ⟨fun i h => ?_, fun r h => ?_⟩ <;> cases error.symm.trans h
  exact noRow

theorem agreesWithTable_step (p : StepPorts) : AgreesWithTable .step p := by
  refine .of_ok (i := decodeStep p) rfl ?_
  rw [← stepWord_ports p, tableLookup_step, decodeStep]
  split <;> rfl

theorem agreesWithTable_bytePhase {fsm : Fsm} {len : Nat}
    (inTable : fsm = .idle ∧ len = 0 ∨ fsm = .receiving ∧ 1 ≤ len ∧ len ≤ 13) (p : StepPorts) :
    AgreesWithTable (.bytePhase fsm len) p := by
  have word : p.word = stepWord p.rxValid p.rxData := (stepWord_ports p).symm
  cases valid : p.rxValid with
  | true =>
    rw [valid] at word
    exact .of_ok (if_pos valid) (by rw [word, tableLookup_selected inTable])
  | false =>
    rw [valid] at word
    exact .of_error (if_neg (by simp [valid])) (by rw [word, tableLookup_bytePhase_noByte])

/-- Settles O5: the first level reads bit 8 alone, as rows TICK and BYTE do; a byte phase has a byte and the row of
`tableLookup_selected`, or no byte and no row. -/
theorem stepDecoderAgreesWithTheOpcodeTable : Obligations.StepDecoderAgreesWithTheOpcodeTable := by
  rintro level p (rfl | rfl | ⟨n, nonempty, bound, rfl⟩)
  · exact agreesWithTable_step p
  · exact agreesWithTable_bytePhase (.inl ⟨rfl, rfl⟩) p
  · exact agreesWithTable_bytePhase (.inr ⟨rfl, nonempty, bound⟩) p

end Sys2Proof
end

section
/-! PROOFS. The 112-bit word of a frame (spec/30_encoding.md R72, R74): pushing a byte shifts the word by one byte, so a
word reads back, from its low end, the bytes pushed, the last one first. -/

namespace Sys2Proof

/-- One step of `Frame.toWord`: the bytes so far move up, and this one takes the low end. -/
def pushByte (w : FrameWord) (b : Byte) : FrameWord := (w <<< 8) ||| b.setWidth 112

theorem Frame.toWord_eq (f : Frame) : f.toWord = f.toBytes.foldl pushByte 0 := rfl

theorem extractLsb'_pushByte_zero (w : FrameWord) (b : Byte) : (pushByte w b).extractLsb' 0 8 = b := by
  ext i hi
  simp [pushByte, hi]
  omega

theorem extractLsb'_pushByte_succ (w : FrameWord) (b : Byte) {k : Nat} (inWord : k + 1 < 14) :
    (pushByte w b).extractLsb' (8 * (k + 1)) 8 = w.extractLsb' (8 * k) 8 := by
  ext i hi
  have above : ¬ 8 * (k + 1) + i < 8 := by omega
  have inside : 8 * (k + 1) + i < 112 := by omega
  have beyond : b.getLsbD (8 * (k + 1) + i) = false := BitVec.getLsbD_of_ge b _ (by omega)
  have below : 8 * (k + 1) + i - 8 = 8 * k + i := by omega
  simp [pushByte, above, inside, beyond, below, BitVec.getLsbD_eq_getElem (show 8 * k + i < 112 by omega)]

/-- Byte `k` of a word, from its low end, is the byte pushed `k` before the last. -/
theorem extractLsb'_foldl_pushByte (bs : List Byte) {k : Nat} (inWord : k < 14) :
    (bs.foldl pushByte 0).extractLsb' (8 * k) 8 = bs.reverse.getD k 0 := by
  induction bs using List.reverseRecOn generalizing k with
  | nil => simp
  | append_singleton bs b ih =>
    rw [List.foldl_concat, List.reverse_concat]
    cases k with
    | zero => exact extractLsb'_pushByte_zero _ b
    | succ k => rw [extractLsb'_pushByte_succ _ b inWord, ih (Nat.lt_of_succ_lt inWord), List.getD_cons_succ]

/-- Bits `111 - 8k` to `104 - 8k` of a frame's word hold the byte at offset `k` (R72). -/
theorem Frame.toBytes_getElem? (f : Frame) {k : Nat} (inFrame : k < 14) :
    f.toBytes[k]? = some (frameWordByte f.toWord k) := by
  have position : 104 - 8 * k = 8 * (13 - k) := by omega
  have mirror : 14 - 1 - (13 - k) = k := by omega
  rw [frameWordByte, position, f.toWord_eq, extractLsb'_foldl_pushByte _ (by omega), List.getD_eq_getElem?_getD,
    List.getElem?_reverse (by simp; omega), f.toBytes_length, mirror, List.getElem?_eq_getElem (by simpa using inFrame)]
  rfl

theorem Frame.ofWord_toBytes (w : FrameWord) : (Frame.ofWord w).toBytes = (List.range 14).map (frameWordByte w) := rfl

theorem Frame.ofWord_toWord (f : Frame) : Frame.ofWord f.toWord = f := by
  refine Frame.toBytes_inj (List.ext_getElem? fun k => ?_)
  rw [Frame.ofWord_toBytes]
  by_cases inFrame : k < 14
  · rw [f.toBytes_getElem? inFrame, List.getElem?_map, List.getElem?_range inFrame]; rfl
  · rw [List.getElem?_eq_none (by simpa using inFrame), List.getElem?_eq_none (by simpa using inFrame)]

/-- The eight payload bytes, in order. -/
def Payload.toBytes (p : Payload) : List Byte := [p.p0, p.p1, p.p2, p.p3, p.p4, p.p5, p.p6, p.p7]

/-- The payload stands at offsets 4 to 11 (R74). -/
theorem Frame.toBytes_payload (f : Frame) {i : Nat} (inPayload : i < 8) :
    f.toBytes[4 + i]? = f.payload.toBytes[i]? :=
  calc f.toBytes[4 + i]?
      = (f.toBytes.drop 4)[i]? := List.getElem?_drop.symm
    _ = (f.payload.toBytes ++ [f.checksum, f.endByte])[i]? := rfl
    _ = f.payload.toBytes[i]? := List.getElem?_append_left inPayload

/-- Settles O7: the word holds the bytes at their offsets, so it reads back to the frame, and so do the bytes. -/
theorem frameWordAndBytesAgree : Obligations.FrameWordAndBytesAgree := fun f =>
  ⟨fun _ => f.toBytes_getElem?, f.ofWord_toWord, fun _ => Frame.ofBytes?_eq_some, fun _ => f.toBytes_payload⟩

end Sys2Proof
end

section
/-! PROOFS. The clock comparison modulo 2^32 (spec/30_encoding.md R86; 40_reassembler.md R103, R104, R120). -/

namespace Sys2Proof.Machine

/-- The 32-bit difference of two readings less than 2^32 apart is the true time between them (R86). -/
theorem toNat_sub_of_readings {a c : Nat} (order : a ≤ c) (near : c < a + 2 ^ 32) :
    (BitVec.ofNat 32 c - BitVec.ofNat 32 a).toNat = c - a := by
  rw [BitVec.toNat_sub, BitVec.toNat_ofNat, BitVec.toNat_ofNat]
  omega

theorem timeoutFires_iff_of_readings {a c : Nat} {s : State} (order : a ≤ c) (near : c < a + 2 ^ 32)
    (recv : s.fsm = .receiving) (last : s.tLast = BitVec.ofNat 32 a) :
    timeoutFires (BitVec.ofNat 32 c) s = true ↔ 500 ≤ c - a := by
  rw [timeoutFires_iff, last, toNat_sub_of_readings order near]
  exact and_iff_right recv

/-- Settles O29: `execTick_cases`, with the timeout's condition in true time. -/
theorem timeoutMeasuresTrueTimeAcrossWrap : Obligations.TimeoutMeasuresTrueTimeAcrossWrap := by
  intro a c s order near recv last
  have fires_iff := timeoutFires_iff_of_readings order near recv last
  rcases execTick_cases (BitVec.ofNat 32 c) s with ⟨fires, answer⟩ | ⟨quiet, answer⟩
  · have late : 500 ≤ c - a := fires_iff.1 fires
    exact ⟨_, answer, iff_of_true rfl late, iff_of_true rfl late, rfl⟩
  · have early : ¬ 500 ≤ c - a := fun late => by simp [fires_iff.2 late] at quiet
    exact ⟨_, answer, iff_of_false (by simp [recv]) early, iff_of_false (by simp) early, rfl⟩

end Sys2Proof.Machine
end

section
/-! PROOFS. The refusals (spec/30_encoding.md R82, R83; log entry 8): each guarded meaning, where its guard fails. -/

namespace Sys2Proof.Machine

/-- The completion reads fourteen bytes as a frame, so it wants thirteen in the buffer (R97, R113). -/
theorem exec_byteRecvEnd_refused {s : State} (unmet : ¬(s.fsm = .receiving ∧ s.len = 13)) (dbg : Bool) :
    exec (.byteRecvEnd dbg) s = .refused .notSelected := by
  change execByteRecvEnd dbg s = _
  unfold execByteRecvEnd
  split
  case h_1 f recv read =>
    have bytes : s.buf ++ [Config.END] = f.toBytes := Frame.ofBytes?_eq_some.1 read
    exact absurd ⟨recv, (Frame.endByte_of_append bytes).2⟩ unmet
  case h_2 => rfl

/-- Settles O47: the statement is each guard's negation; the model counts `LEN` after the append, the statement before
it. -/
theorem subOperationsRefuseWhenNotSelected : Obligations.SubOperationsRefuseWhenNotSelected := by
  intro s b dbg
  refine ⟨fun recv => if_neg ?start, fun unmet => if_neg unmet, fun unmet => if_neg ?fill,
    fun unmet => exec_byteRecvEnd_refused unmet dbg, fun unmet => if_neg ?overrun, fun _ => rfl⟩
  case start => simp [recv]
  case fill =>
    rintro ⟨recv, short : s.len + 1 < 14⟩
    exact unmet ⟨recv, by omega⟩
  case overrun =>
    rintro ⟨recv, full : 14 ≤ s.len + 1, noEnd : ¬(s.len + 1 = 14 ∧ b = 0x34)⟩
    exact unmet ⟨recv, by omega, fun last => noEnd ⟨by omega, last.2⟩⟩

end Sys2Proof.Machine
end

section
/-! PROOFS. `TempDecode` (spec/30_encoding.md R85). -/

namespace Sys2Proof.Machine

theorem tempDecode_toInt (r : BitVec 7) : (tempDecode r).toInt = r.toNat - 55 := by
  have magnitude : r.toNat < 128 := r.isLt
  rw [tempDecode, BitVec.toInt_ofInt, Int.bmod_def]
  simp only [Config.TEMP_OFFSET]
  omega

/-- The hardware's form: `C9` is -55 modulo 256. -/
theorem tempDecode_eq_add (r : BitVec 7) : tempDecode r = r.setWidth 8 + 0xC9 :=
  calc tempDecode r
      = BitVec.ofInt 8 (r.toNat : Int) + BitVec.ofInt 8 (-55) := by
        rw [tempDecode, Int.sub_eq_add_neg, BitVec.ofInt_add]; rfl
    _ = r.setWidth 8 + 0xC9 := by rw [BitVec.ofInt_natCast, BitVec.ofNat_toNat]; rfl

/-- Settles O16: the range is `tempDecode_inRange`. -/
theorem tempDecodeIsExact : Obligations.TempDecodeIsExact := fun r =>
  have ⟨low, high⟩ := tempDecode_inRange r
  ⟨tempDecode_toInt r, low, high, tempDecode_eq_add r⟩

end Sys2Proof.Machine
end

section
/-! PROOFS. Words written out from the encoding tables (spec/30_encoding.md R71, R72, R82, R83). -/

namespace Sys2Proof

/-- Settles O6: each word is closed, so its decoding is evaluated. -/
theorem sampleWordsDecodeAsTheEncodingTablesSay : Obligations.SampleWordsDecodeAsTheEncodingTablesSay := by
  refine ⟨?tick, ?byte, ?idleStart, ?idleNoise, ?recvFill, ?recvEnd, ?recvOverrun, ?p1, ?tDec9⟩
  case tick | byte | idleStart | idleNoise | recvFill | recvEnd | recvOverrun => decide
  case p1 | tDec9 => rfl

end Sys2Proof
end

section
/-! PROOFS. The byte phase by the sub-operation that the table selects (spec/30_encoding.md R82; 40_reassembler.md
R107, R116). -/

namespace Sys2Proof.Machine

/-- The second level of the step decoder meets the condition that the table gives its choice. -/
theorem selectByteOp_selected (b : Byte) (s : State) : ByteOp.Selected (selectByteOp s.fsm s.len b) b s := by
  rcases selectByteOp_cases s.fsm s.len b with
    ⟨idle, isStart, e⟩ | ⟨idle, noStart, e⟩ | ⟨recv, short, e⟩ | ⟨recv, full, isEnd, e⟩ |
    ⟨recv, full, noEnd, e⟩ <;> rw [e]
  · exact ⟨idle, isStart⟩
  · exact ⟨idle, noStart⟩
  · exact ⟨recv, by omega⟩
  · exact ⟨recv, by omega, isEnd⟩
  · exact ⟨recv, by omega, fun last => noEnd ⟨by omega, last.2⟩⟩

/-- The conditions of the table exclude one another: only the decoder's choice meets its own. -/
theorem selectByteOp_eq_of_selected {op : ByteOp} {b : Byte} {s : State} (selected : ByteOp.Selected op b s) :
    selectByteOp s.fsm s.len b = op := by
  cases op with
  | idleStart =>
    obtain ⟨idle, rfl⟩ := selected
    rw [idle]; rfl
  | idleNoise =>
    obtain ⟨idle, noStart⟩ := selected
    rw [idle, selectByteOp_noise noStart]
  | recvFill =>
    obtain ⟨recv, short⟩ := selected
    rw [recv, selectByteOp_fill (by omega)]
  | recvEnd =>
    obtain ⟨recv, full, rfl⟩ := selected
    rw [recv, selectByteOp_end (by omega)]
  | recvOverrun =>
    obtain ⟨recv, full, noEnd⟩ := selected
    rw [recv, selectByteOp_overrun (by omega) fun last => noEnd ⟨by omega, last.2⟩]

theorem bytePhase_of_selected {op : ByteOp} {b : Byte} {s : State} (dbg : Bool) (selected : ByteOp.Selected op b s) :
    bytePhase b dbg s = exec (op.toInstr b dbg) s := by
  rw [bytePhase, selectByteOp_eq_of_selected selected]
  cases op <;> rfl

theorem bytePhase_start (dbg : Bool) {s : State} (idle : s.fsm = .idle) :
    bytePhase Config.START dbg s = .next (startBuffer s) :=
  (bytePhase_of_selected dbg (op := .idleStart) ⟨idle, rfl⟩).trans (exec_byteIdleStart_eq_next_iff.2 ⟨idle, rfl⟩)

theorem bytePhase_noise {b : Byte} (dbg : Bool) {s : State} (idle : s.fsm = .idle) (noStart : b ≠ Config.START) :
    bytePhase b dbg s = .next s :=
  (bytePhase_of_selected dbg (op := .idleNoise) ⟨idle, noStart⟩).trans
    (exec_byteIdleNoise_eq_next_iff.2 ⟨⟨idle, noStart⟩, rfl⟩)

theorem bytePhase_fill (b : Byte) (dbg : Bool) {s : State} (recv : s.fsm = .receiving) (short : s.len ≤ 12) :
    bytePhase b dbg s = .next (appendByte b s) :=
  (bytePhase_of_selected dbg (op := .recvFill) ⟨recv, short⟩).trans
    (exec_byteRecvFill_eq_next_iff.2 ⟨⟨recv, by omega⟩, rfl⟩)

theorem exec_byteRecvOverrun {b : Byte} {s : State} (recv : s.fsm = .receiving) (full : s.len = 13)
    (noEnd : b ≠ Config.END) :
    exec (.byteRecvOverrun b) s =
      .next { s with fsm := .idle, buf := [], log := s.log ++ [.overrun (s.buf ++ [b])] } :=
  exec_byteRecvOverrun_eq_next_iff.2 ⟨⟨recv, by omega, fun last => noEnd last.2⟩, rfl⟩

theorem bytePhase_overrun {b : Byte} (dbg : Bool) {s : State} (recv : s.fsm = .receiving) (full : s.len = 13)
    (noEnd : b ≠ Config.END) :
    bytePhase b dbg s = .next { s with fsm := .idle, buf := [], log := s.log ++ [.overrun (s.buf ++ [b])] } :=
  (bytePhase_of_selected dbg (op := .recvOverrun) ⟨recv, full.ge, fun last => noEnd last.2⟩).trans
    (exec_byteRecvOverrun recv full noEnd)

/-- The byte phase is the block's own: the clock reading and the environment's inputs stay. -/
theorem BytePhaseTo.keeps {b : Byte} {dbg : Bool} {s t : State} (phase : BytePhaseTo b dbg s t) :
    t.tLast = s.tLast ∧ t.inputs = s.inputs := by
  cases phase <;> exact ⟨rfl, rfl⟩

/-- From RECEIVING, the byte that makes the buffer full leads to IDLE, a completion or an overrun (R113, R114). -/
theorem BytePhaseTo.idle_of_full {b : Byte} {dbg : Bool} {s t : State} (phase : BytePhaseTo b dbg s t)
    (recv : s.fsm = .receiving) (full : s.len = 13) : t.fsm = .idle := by
  cases phase with
  | start idle | noise idle => cases idle.symm.trans recv
  | fill _ short => omega
  | complete | overrun => rfl

end Sys2Proof.Machine
end

section
/-! PROOFS. A step on each side of the timeout (spec/40_reassembler.md R100 to R107). -/

namespace Sys2Proof.Machine

theorem not_late_of_idle {s : State} (now : Time) (idle : s.fsm = .idle) : ¬ s.late now := by
  simp [State.late, idle]

/-- The second reading comes less than 500 units after the first (R103, R104). -/
def Near (first second : Time) : Prop := (second - first).toNat < 500

theorem Near.refl (now : Time) : Near now now := by simp [Near]

theorem not_late_of_near {s : State} {now : Time} (near : Near s.tLast now) : ¬ s.late now :=
  fun late => Nat.not_lt.2 late.2 near

theorem exec_tick_late {s : State} {now : Time} (late : s.late now) :
    exec (.tick now) s = .next { s with fsm := .idle, buf := [], log := [.timeout s.buf] } := by
  rcases execTick_cases now s with ⟨_, e⟩ | ⟨quiet, _⟩
  · exact e
  · simp [(late_iff s now).1 late] at quiet

theorem exec_tick_not_late {s : State} {now : Time} (early : ¬ s.late now) :
    exec (.tick now) s = .next { s with log := [] } := by
  rcases execTick_cases now s with ⟨fires, _⟩ | ⟨_, e⟩
  · exact absurd ((late_iff s now).2 fires) early
  · exact e

theorem byteCommon_late {s : State} {now : Time} (late : s.late now) :
    byteCommon now s = { s with fsm := .idle, buf := [], tLast := now, log := [.timeout s.buf] } := by
  rcases byteCommon_cases now s with ⟨_, e⟩ | ⟨quiet, _⟩
  · exact e
  · simp [(late_iff s now).1 late] at quiet

theorem byteCommon_not_late {s : State} {now : Time} (early : ¬ s.late now) :
    byteCommon now s = { s with tLast := now, log := [] } := by
  rcases byteCommon_cases now s with ⟨fires, _⟩ | ⟨_, e⟩
  · exact absurd ((late_iff s now).2 fires) early
  · exact e

theorem timeoutPhase_inputs (now : Time) (s : State) : (timeoutPhase now s).inputs = s.inputs := by
  rcases timeoutPhase_cases now s with ⟨_, e⟩ | ⟨_, e⟩ <;> rw [e]

/-- BYTE stores its clock reading and leaves the environment's inputs (R107). -/
theorem exec_byte_keeps {now : Time} {b : Byte} {dbg : Bool} {s t : State} (h : exec (.byte now b dbg) s = .next t) :
    t.tLast = now ∧ t.inputs = s.inputs := by
  obtain ⟨tLast, inputs⟩ := (bytePhaseTo_of_bytePhase (s := byteCommon now s) h).keeps
  exact ⟨tLast, inputs.trans (timeoutPhase_inputs now (beginStep s))⟩

/-! BYTE, by its sub-operation and the side of the timeout. -/

theorem exec_byte_start {s : State} (now : Time) (dbg : Bool) (idle : s.fsm = .idle) :
    exec (.byte now Config.START dbg) s =
      .next { s with fsm := .receiving, buf := [Config.START], tLast := now, log := [] } :=
  (exec_byte_not_late _ _ (not_late_of_idle now idle)).trans (bytePhase_start dbg idle)

theorem exec_byte_noise {s : State} {b : Byte} (now : Time) (dbg : Bool) (idle : s.fsm = .idle)
    (noStart : b ≠ Config.START) : exec (.byte now b dbg) s = .next { s with tLast := now, log := [] } :=
  (exec_byte_not_late _ _ (not_late_of_idle now idle)).trans (bytePhase_noise dbg idle noStart)

theorem exec_byte_fill {s : State} {now : Time} (b : Byte) (dbg : Bool) (recv : s.fsm = .receiving)
    (short : s.len ≤ 12) (early : ¬ s.late now) :
    exec (.byte now b dbg) s = .next { s with buf := s.buf ++ [b], tLast := now, log := [] } :=
  (exec_byte_not_late b dbg early).trans (bytePhase_fill b dbg recv short)

theorem exec_byte_complete {s : State} {now : Time} {f : Frame} (dbg : Bool) (recv : s.fsm = .receiving)
    (bytes : s.buf ++ [Config.END] = f.toBytes) (early : ¬ s.late now) :
    exec (.byte now Config.END dbg) s = .next (emitted f dbg (clearBuffer { s with tLast := now, log := [] })) :=
  (exec_byte_not_late _ _ early).trans (bytePhase_of_frame dbg recv bytes)

theorem exec_byte_overrun {s : State} {now : Time} {b : Byte} (dbg : Bool) (recv : s.fsm = .receiving)
    (full : s.len = 13) (noEnd : b ≠ Config.END) (early : ¬ s.late now) :
    exec (.byte now b dbg) s =
      .next { s with fsm := .idle, buf := [], tLast := now, log := [.overrun (s.buf ++ [b])] } :=
  (exec_byte_not_late b dbg early).trans (bytePhase_overrun dbg recv full noEnd)

/-- A late byte finds IDLE and an empty buffer, whatever was buffered (R102). -/
theorem exec_byte_late_eq {s : State} {now : Time} (b : Byte) (dbg : Bool) (late : s.late now) :
    exec (.byte now b dbg) s = .next
      (if b = Config.START then
        { s with fsm := .receiving, buf := [Config.START], tLast := now, log := [.timeout s.buf] }
      else { s with fsm := .idle, buf := [], tLast := now, log := [.timeout s.buf] }) := by
  rw [exec_byte_late b dbg late]
  split
  case isTrue isStart =>
    rw [isStart]
    exact bytePhase_start dbg rfl
  case isFalse noStart => exact bytePhase_noise dbg rfl noStart

/-- Settles O18: the two answers of TICK. -/
theorem tickIsTheTimeoutPhaseAlone : Obligations.TickIsTheTimeoutPhaseAlone :=
  fun _ _ => ⟨exec_tick_late, exec_tick_not_late⟩

/-- Settles O19: the sub-operation is the decoder's choice, the only one whose condition of R82 is met. -/
theorem byteRunsExactlyOneSubOperation : Obligations.ByteRunsExactlyOneSubOperation := by
  intro now b dbg s
  obtain ⟨t, answer⟩ := bytePhase_answers b dbg (byteCommon now s)
  have selected := selectByteOp_selected b (byteCommon now s)
  have only (op : ByteOp) (h : ByteOp.Selected op b (byteCommon now s)) : op = _ := (selectByteOp_eq_of_selected h).symm
  exact ⟨byteCommon_late, byteCommon_not_late,
    _, t, selected, only, bytePhase_of_selected dbg selected, answer, exec_byte_keeps answer⟩

/-- Settles O20: BYTE's common part is TICK with the clock reading stored; a late byte is `exec_byte_late_eq`. -/
theorem lateByteIsProcessedInIdle : Obligations.LateByteIsProcessedInIdle := by
  refine ⟨fun now b dbg s u answer => ?_, fun now b dbg s => exec_byte_late_eq b dbg⟩
  cases answer
  rfl

/-- Settles O30: the step stored the reading, so no time has elapsed at the same reading. -/
theorem batchNeverTimesOut : Obligations.BatchNeverTimesOut := by
  intro s t now b dbg answer
  obtain ⟨rfl, -⟩ := exec_byte_keeps answer
  have early : ¬ t.late t.tLast := not_late_of_near (Near.refl _)
  exact ⟨early, exec_tick_not_late early, fun b' dbg' => exec_byte_not_late b' dbg' early⟩

end Sys2Proof.Machine
end

section
/-! PROOFS. Runs over BYTE edges (spec/40_reassembler.md R108 to R114, R117, R121): noise in IDLE, and the fill of the
buffer, byte by byte, at readings less than 500 apart. -/

namespace Sys2Proof.Machine

/-- A run over a BYTE edge begins with that BYTE. -/
theorem RunsTo.byte {n : Nat} {s u t : State} {now : Time} {dbg : Bool} {b : Byte} {rest : List Edge}
    (edge : s.inputs = byteEdge now dbg b :: rest) (answer : exec (.byte now b dbg) { s with inputs := rest } = .next u)
    (run : RunsTo n u t) : RunsTo (n + 1) s t :=
  .cons ((step_byteEdge edge).trans answer) run

/-- Once its reading is stored and the log is empty, a batch of noise changes nothing more (R109). -/
theorem RunsTo.noise {s : State} (now : Time) (dbg : Bool) {noise : List Byte} (rest : List Edge)
    (idle : s.fsm = .idle) (noStart : ∀ b ∈ noise, b ≠ Config.START) :
    RunsTo noise.length { s with tLast := now, log := [], inputs := batch now dbg noise ++ rest }
      { s with tLast := now, log := [], inputs := rest } := by
  induction noise with
  | nil => exact .zero _
  | cons b noise ih =>
    obtain ⟨noStartHead, noStartTail⟩ := List.forall_mem_cons.1 noStart
    exact .byte rfl (exec_byte_noise now dbg idle noStartHead) (ih noStartTail)

/-- The BYTE edges of these bytes at these readings, in order (R94). -/
def byteEdges (dbg : Bool) (nows : List Time) (bs : List Byte) : List Edge :=
  List.zipWith (fun now b => byteEdge now dbg b) nows bs

theorem batch_eq_byteEdges (now : Time) (dbg : Bool) (bs : List Byte) :
    batch now dbg bs = byteEdges dbg (List.replicate bs.length now) bs := by
  induction bs with
  | nil => rfl
  | cons b bs ih => exact congrArg (byteEdge now dbg b :: ·) ih

/-- While RECEIVING, bytes at readings near enough to each other are buffered, whatever their values (R111, R112). -/
theorem RunsTo.fill {s : State} {nows : List Time} {bs : List Byte} (dbg : Bool) (rest : List Edge)
    (recv : s.fsm = .receiving) (room : s.len + bs.length ≤ 13) (lengths : nows.length = bs.length)
    (near : List.IsChain Near (s.tLast :: nows)) :
    RunsTo bs.length { s with log := [], inputs := byteEdges dbg nows bs ++ rest }
      { s with
        buf := s.buf ++ bs, tLast := (s.tLast :: nows).getLast (by simp), log := [], inputs := rest } := by
  induction bs generalizing s nows with
  | nil =>
    obtain rfl := List.eq_nil_of_length_eq_zero lengths
    simpa [byteEdges] using RunsTo.zero { s with log := [], inputs := rest }
  | cons b bs ih =>
    obtain ⟨now, nows, rfl⟩ := List.exists_cons_of_length_eq_add_one lengths
    obtain ⟨first, others⟩ := List.isChain_cons_cons.1 near
    rw [List.length_cons] at room
    rw [List.append_cons]
    refine .byte rfl (exec_byte_fill b dbg recv ?short (not_late_of_near first)) ?filled
    case short => show s.len ≤ 12; omega
    case filled =>
      refine ih (s := { s with buf := s.buf ++ [b], tLast := now }) recv ?_ (Nat.succ.inj lengths) others
      show (appendByte b s).len + bs.length ≤ 13
      rw [appendByte_len]; omega

/-- Once its reading is stored and the log is empty, a batch changes nothing but the buffer (R112, R117). -/
theorem RunsTo.fill_batch {s : State} (now : Time) (dbg : Bool) {bs : List Byte} (rest : List Edge)
    (recv : s.fsm = .receiving) (room : s.len + bs.length ≤ 13) :
    RunsTo bs.length { s with tLast := now, log := [], inputs := batch now dbg bs ++ rest }
      { s with buf := s.buf ++ bs, tLast := now, log := [], inputs := rest } := by
  have near : List.IsChain Near (now :: List.replicate bs.length now) :=
    List.isChain_replicate_of_rel (bs.length + 1) (Near.refl now)
  have last : (now :: List.replicate bs.length now).getLast (by simp) = now := by simp [← List.replicate_succ]
  have filled := RunsTo.fill (s := { s with tLast := now }) dbg rest recv room List.length_replicate near
  rwa [last, ← batch_eq_byteEdges] at filled

/-- A batch that continues a buffer in time is buffered whole. -/
theorem RunsTo.continue_batch {s : State} {now : Time} {bs : List Byte} (dbg : Bool) (rest : List Edge)
    (recv : s.fsm = .receiving) (room : s.len + bs.length ≤ 13) (early : ¬ s.late now) (nonempty : bs ≠ []) :
    RunsTo bs.length { s with inputs := batch now dbg bs ++ rest }
      { s with buf := s.buf ++ bs, tLast := now, log := [], inputs := rest } := by
  obtain ⟨b, bs, rfl⟩ := List.exists_cons_of_ne_nil nonempty
  have short : s.len ≤ 12 := by rw [List.length_cons] at room; omega
  have roomTail : (appendByte b s).len + bs.length ≤ 13 := by
    rw [appendByte_len, Nat.add_assoc, Nat.add_comm 1]; exact room
  rw [List.append_cons]
  exact .byte rfl (exec_byte_fill b dbg recv short early)
    (.fill_batch (s := appendByte b s) now dbg rest recv roomTail)

/-- From IDLE, a batch that opens with the start sentinel is buffered whole, up to thirteen bytes. -/
theorem RunsTo.open_batch {s : State} (now : Time) (dbg : Bool) {bs : List Byte} (rest : List Edge)
    (idle : s.fsm = .idle) (room : bs.length ≤ 12) :
    RunsTo (bs.length + 1) { s with inputs := batch now dbg (Config.START :: bs) ++ rest }
      { s with fsm := .receiving, buf := Config.START :: bs, tLast := now, log := [], inputs := rest } :=
  .byte rfl (exec_byte_start now dbg idle)
    (.fill_batch (s := startBuffer s) now dbg rest rfl (by rw [startBuffer_len]; omega))

/-- Settles O21: START by its guard, BYTE on either side of the timeout, and one edge from reset. -/
theorem startSentinelOpensTheBuffer : Obligations.StartSentinelOpensTheBuffer := by
  refine ⟨fun s idle => exec_byteIdleStart_eq_next_iff.2 ⟨idle, rfl⟩, fun s now dbg => exec_byte_start now dbg,
    fun s now dbg late => exec_byte_late_eq Config.START dbg late, fun rest => ?sample⟩
  case sample =>
    exact ⟨_, (step_byteEdge rfl).trans (exec_byte_start 7 false rfl), rfl, rfl, rfl, rfl, rfl⟩

/-- Settles O22: the run's first byte stores the reading and empties the log, the others change nothing. -/
theorem noiseInIdleIsDiscarded : Obligations.NoiseInIdleIsDiscarded := by
  refine ⟨fun s b idle noStart => exec_byteIdleNoise_eq_next_iff.2 ⟨⟨idle, noStart⟩, rfl⟩,
    fun s now b dbg => exec_byte_noise now dbg, fun s now dbg noise rest idle _ nonempty noStart => ?run⟩
  case run =>
    obtain ⟨b, noise, rfl⟩ := List.exists_cons_of_ne_nil nonempty
    obtain ⟨noStartHead, noStartTail⟩ := List.forall_mem_cons.1 noStart
    exact .byte rfl (exec_byte_noise now dbg idle noStartHead) (.noise now dbg rest idle noStartTail)

/-- Settles O23: the example is a batch of three at the reading already stored. -/
theorem fillAppendsWhateverTheByte : Obligations.FillAppendsWhateverTheByte := by
  refine ⟨fun s b recv _ short => exec_byteRecvFill_eq_next_iff.2 ⟨⟨recv, by omega⟩, rfl⟩,
    fun s now b dbg recv _ short => exec_byte_fill b dbg recv short, fun s rest recv opened stored => ?sample⟩
  case sample =>
    have early : ¬ s.late 0 := not_late_of_near (stored ▸ Near.refl 0)
    have room : s.len + 3 ≤ 13 := by simp [len_eq, opened]
    have filled := RunsTo.continue_batch (bs := [0x20, 0x84, 0x52]) false rest recv room early (by simp)
    rw [opened, ← stored] at filled
    rw [← stored, opened]
    exact filled

/-- Settles O24: the example is a batch from reset that opens with the start sentinel. -/
theorem sentinelsInsideAFrameAreData : Obligations.SentinelsInsideAFrameAreData := by
  constructor
  · exact fun s now dbg bs rest recv _ room early => .continue_batch dbg rest recv room early
  · exact ⟨_, .open_batch (s := .reset) 0 false [] rfl
      (bs := [0x32, 0x34, 0x32, 0x34, 0x00, 0x00, 0x00, 0x00, 0x00, 0x00, 0x00]) (by decide), rfl, rfl, rfl⟩

end Sys2Proof.Machine
end

section
/-! PROOFS. The end of the frame (spec/40_reassembler.md R113, R114, R121; spec/41_checksum_validator.md R134): the
completion, the overrun, and a whole frame from its first byte to its last. -/

namespace Sys2Proof.Machine

/-- `Emit` in the words of R131, R134 and R140. -/
theorem emitted_eq (f : Frame) (dbg : Bool) (s : State) :
    emitted f dbg s = { s with
      log := s.log ++ (if dbg then [.dump f] else []) ++
        (if xorSum f = f.checksum ∧ f.start = 0x32 then [] else [.checksumFail f (xorSum f) f.checksum])
      store :=
        if (xorSum f = f.checksum ∧ f.start = 0x32) ∧ f.source = 0x20 ∧ f.destination = 0x84 ∧ f.command = 0x52
        then some (decodedFields f.payload) else s.store } := by
  simp only [emitted, Bool.and_eq_true, validate_pass_iff, hasRecognisedKey_iff, Config.START]

/-- The thirteen bytes of a full buffer and the end sentinel are a frame. -/
theorem exists_frame_of_full {s : State} (full : s.len = 13) : ∃ f : Frame, s.buf ++ [Config.END] = f.toBytes := by
  obtain ⟨f, read⟩ := Frame.ofBytes?_isSome (bs := s.buf ++ [Config.END]) (by simpa [len_eq] using full)
  exact ⟨f, Frame.ofBytes?_eq_some.1 read⟩

theorem start_of_completes {s : State} {f : Frame} (h : s.SequencingOk) (recv : s.fsm = .receiving)
    (bytes : s.buf ++ [Config.END] = f.toBytes) : f.start = Config.START := by
  have candidate := isCandidate_of_completes h recv bytes
  simp only [Frame.isCandidate, Bool.and_eq_true, beq_iff_eq] at candidate
  exact candidate.1

/-- Offsets 1 to 12: the bytes between the sentinels. -/
def innerBytes (f : Frame) : List Byte := f.covered ++ [f.checksum]

theorem toBytes_of_candidate {f : Frame} (start : f.start = Config.START) (isEnd : f.endByte = Config.END) :
    f.toBytes = (Config.START :: innerBytes f) ++ [Config.END] := by
  rw [← start, ← isEnd]; rfl

theorem byteEdges_append (dbg : Bool) {nows : List Time} {bs : List Byte} (lengths : nows.length = bs.length)
    (nows' : List Time) (bs' : List Byte) :
    byteEdges dbg (nows ++ nows') (bs ++ bs') = byteEdges dbg nows bs ++ byteEdges dbg nows' bs' :=
  List.zipWith_append lengths

/-- A candidate frame whose bytes come near enough to each other is reassembled and emitted (R108, R111, R113). -/
theorem RunsTo.frame {s : State} {f : Frame} {nows : List Time} {last : Time} (dbg : Bool) (rest : List Edge)
    (idle : s.fsm = .idle) (start : f.start = Config.START) (isEnd : f.endByte = Config.END)
    (lengths : nows.length = 13) (near : List.IsChain Near (nows ++ [last])) :
    RunsTo 14 { s with inputs := byteEdges dbg (nows ++ [last]) f.toBytes ++ rest }
      (emitted f dbg (clearBuffer { s with tLast := last, log := [], inputs := rest })) := by
  obtain ⟨first, nows, rfl⟩ := List.exists_cons_of_length_eq_add_one lengths
  obtain ⟨nearInner, -, nearLast⟩ := List.isChain_append.1 near
  have early := nearLast _ (List.getLast_mem_getLast? (List.cons_ne_nil first nows)) last rfl
  have bytes := toBytes_of_candidate start isEnd
  have filled := RunsTo.fill (s := { s with fsm := .receiving, buf := [Config.START], tLast := first })
    (bs := innerBytes f) dbg (byteEdge last dbg Config.END :: rest) rfl (Nat.le_refl 13) (Nat.succ.inj lengths)
    nearInner
  rw [bytes, byteEdges_append dbg lengths, List.append_assoc]
  exact .byte rfl (exec_byte_start first dbg idle) (.append filled
    (.byte rfl (exec_byte_complete dbg rfl bytes.symm (not_late_of_near early)) (.zero _)))

/-- Settles O48: the run is `RunsTo.frame`, and the start test of `Validate` is met by a candidate frame. -/
theorem wholeFrameIsReassembled : Obligations.WholeFrameIsReassembled := by
  intro s f dbg nows last rest idle start isEnd lengths gaps
  have near : List.IsChain Near (nows ++ [last]) :=
    List.isChain_iff_getElem.2 fun k inside =>
      gaps k _ _ (List.getElem?_eq_getElem (by omega)) (List.getElem?_eq_getElem inside)
  simpa only [byteEdges, emitted_eq, clearBuffer, start, idle, and_true, List.nil_append] using
    RunsTo.frame dbg rest idle start isEnd lengths near

/-- Settles O25: the buffer and the end sentinel are a frame, and `Emit` runs on it; scenario A is a whole frame. -/
theorem endSentinelCompletesTheFrame : Obligations.EndSentinelCompletesTheFrame := by
  constructor
  · intro s dbg recv full
    obtain ⟨f, bytes⟩ := exists_frame_of_full full
    refine ⟨f, bytes, (Frame.endByte_of_append bytes).1.symm, fun h => start_of_completes h recv bytes, ?_, ?_⟩
    · exact exec_byteRecvEnd_eq_next_iff.2 ⟨f, recv, bytes, emitted_eq f dbg (clearBuffer s)⟩
    · exact fun now early => (exec_byte_not_late _ dbg early).trans
        (bytePhase_of_selected dbg (op := .recvEnd) ⟨recv, full, rfl⟩)
  · exact ⟨_, .frame (s := .reset) (nows := List.replicate 13 0) (last := 0)
      (f := ⟨0x32, 0x20, 0x84, 0x52, ⟨0x37, 0x37, 0x37, 0x00, 0x80, 0x00, 0x00, 0x00⟩, 0x41, 0x34⟩) false []
      rfl rfl rfl rfl (List.isChain_replicate_of_rel 14 (Near.refl 0)), rfl, rfl, rfl, rfl⟩

/-- Settles O26: the example is thirteen bytes from reset, the first the start sentinel, and the fourteenth. -/
theorem overrunDiscardsAllFourteenBytes : Obligations.OverrunDiscardsAllFourteenBytes := by
  refine ⟨fun s b => exec_byteRecvOverrun, fun s now b dbg => exec_byte_overrun dbg, ?sample⟩
  case sample =>
    have filled := RunsTo.open_batch (s := .reset) 0 false [byteEdge 0 false 0x0D] rfl
      (bs := [0x01, 0x02, 0x03, 0x04, 0x05, 0x06, 0x07, 0x08, 0x09, 0x0A, 0x0B, 0x0C]) (by decide)
    exact ⟨_, .append filled
      (.byte rfl (exec_byte_overrun false rfl rfl (by decide) (not_late_of_near (Near.refl 0))) (.zero _)),
      rfl, rfl, rfl⟩

end Sys2Proof.Machine
end

section
/-! PROOFS. Edges that carry a step (spec/10_state.md R20; 40_reassembler.md R100), and the moves of FSM over an edge
(R118, R119). -/

namespace Sys2Proof.Machine

theorem step_reset {s : State} {e : Edge} {rest : List Edge} (edge : s.inputs = e :: rest) (rst : e.rst = true) :
    step s = .next (applyReset { s with inputs := rest }) := by
  simp [step_edge edge, clockEdge, rst]

theorem step_strobe {s : State} {e : Edge} {rest : List Edge} (edge : s.inputs = e :: rest) (rst : e.rst = false)
    (en : e.stepEn = true) : step s = exec (decodeStep e.ports) { s with inputs := rest } := by
  simp [step_edge edge, clockEdge, rst, en]

theorem decodeStep_byte {p : StepPorts} (hasByte : p.rxValid = true) : decodeStep p = .byte p.now p.rxData p.dbg :=
  if_pos hasByte

theorem decodeStep_tick {p : StepPorts} (noByte : p.rxValid = false) : decodeStep p = .tick p.now :=
  if_neg (by simp [noByte])

theorem step_presentStep (p : StepPorts) (s : State) : step (presentStep p s) = exec (decodeStep p) s :=
  step_strobe (e := stepEdge p) (rest := s.inputs) (presentStep_inputs p s) rfl rfl

/-- Settles O41: an edge with the strobe runs what its ports decode to, and a table word of format STEP is placed as
such an edge. -/
theorem stepRunsTheDecodedInstruction : Obligations.StepRunsTheDecodedInstruction := by
  constructor
  · rintro s e rest _ edge rst en ⟨⟩
    exact step_strobe edge rst en
  · intro s nbits w i noFrame decoded
    rw [decodeTableWord, if_neg noFrame] at decoded
    split at decoded
    · cases decoded
      rw [State.withFetchWord, placeTableWord, if_neg noFrame]
      exact step_presentStep _ s
    · cases decoded

/-- A late step records the whole buffer and leaves it empty, or fresh with the start sentinel (R102, R105). -/
theorem step_late {s : State} {e : Edge} {rest : List Edge} (edge : s.inputs = e :: rest) (rst : e.rst = false)
    (en : e.stepEn = true) (late : s.late e.ports.now) :
    ∃ t, step s = .next t ∧ t.log = [.timeout s.buf] ∧
      (t.fsm = .idle ↔ ¬(e.ports.rxValid = true ∧ e.ports.rxData = Config.START)) ∧
      (t.fsm = .idle ∧ t.buf = [] ∨ t.buf = [Config.START]) := by
  rw [step_strobe edge rst en]
  cases valid : e.ports.rxValid with
  | false =>
    rw [decodeStep_tick valid, exec_tick_late (s := { s with inputs := rest }) late]
    exact ⟨_, rfl, rfl, by simp, .inl ⟨rfl, rfl⟩⟩
  | true =>
    rw [decodeStep_byte valid, exec_byte_late_eq (s := { s with inputs := rest }) _ _ late]
    by_cases isStart : e.ports.rxData = Config.START
    · exact ⟨_, rfl, by simp [isStart]⟩
    · exact ⟨_, rfl, by simp [isStart]⟩

/-- From IDLE, a step enters RECEIVING exactly by the start sentinel. -/
theorem step_idle {s : State} {e : Edge} {rest : List Edge} (idle : s.fsm = .idle) (edge : s.inputs = e :: rest)
    (rst : e.rst = false) (en : e.stepEn = true) :
    ∃ t, step s = .next t ∧ (t.fsm = .receiving ↔ e.ports.rxValid = true ∧ e.ports.rxData = Config.START) := by
  rw [step_strobe edge rst en]
  cases valid : e.ports.rxValid with
  | false =>
    rw [decodeStep_tick valid]
    exact ⟨_, exec_tick_of_idle _ idle, by simp [idle]⟩
  | true =>
    rw [decodeStep_byte valid]
    by_cases isStart : e.ports.rxData = Config.START
    · rw [isStart]
      exact ⟨_, exec_byte_start _ _ idle, by simp⟩
    · exact ⟨_, exec_byte_noise _ _ idle isStart, by simp [idle, isStart]⟩

/-- While RECEIVING, a step that is not late enters IDLE exactly by the fourteenth byte; before it a TICK keeps `LEN`
and a byte adds one. -/
theorem step_receiving_early {s : State} {e : Edge} {rest : List Edge} (sequencing : s.SequencingOk)
    (recv : s.fsm = .receiving) (edge : s.inputs = e :: rest) (rst : e.rst = false) (en : e.stepEn = true)
    (early : ¬ s.late e.ports.now) :
    ∃ t, step s = .next t ∧
     ((t.fsm = .idle ∧ e.ports.rxValid = true ∧ s.len = 13) ∨
      (t.fsm = .receiving ∧ ¬(e.ports.rxValid = true ∧ s.len = 13) ∧ t.inputs = rest ∧
        t.len = s.len + if e.ports.rxValid then 1 else 0)) := by
  rw [step_strobe edge rst en]
  cases valid : e.ports.rxValid with
  | false =>
    rw [decodeStep_tick valid]
    exact ⟨_, exec_tick_not_late (s := { s with inputs := rest }) early, .inr ⟨recv, by simp, rfl, rfl⟩⟩
  | true =>
    rw [decodeStep_byte valid]
    by_cases full : s.len = 13
    · rw [exec_byte_not_late (s := { s with inputs := rest }) _ _ early]
      obtain ⟨t, answer⟩ := bytePhase_answers e.ports.rxData e.ports.dbg
        { s with tLast := e.ports.now, log := [], inputs := rest }
      exact ⟨t, answer, .inl ⟨(bytePhaseTo_of_bytePhase answer).idle_of_full recv full, rfl, full⟩⟩
    · have short : s.len ≤ 12 := by have := sequencing.len_le; omega
      exact ⟨_, exec_byte_fill (s := { s with inputs := rest }) _ _ recv short early,
        .inr ⟨recv, by simp [full], rfl, appendByte_len e.ports.rxData s⟩⟩

/-- Settles O28: a reset, an edge without a step, and the three answers of a step: from IDLE, late, and not late. -/
theorem fsmMovesOnlyAsTheTransitionTable : Obligations.FsmMovesOnlyAsTheTransitionTable := by
  intro s t e rest sequencing edge hstep
  cases rst : e.rst with
  | true =>
    cases (step_reset edge rst).symm.trans hstep
    exact ⟨fun _ => by simp, fun _ => by simp⟩
  | false =>
    cases en : e.stepEn with
    | false =>
      cases (edgeWithoutStepChangesNothing.1 s e rest edge rst en).symm.trans hstep
      exact ⟨fun idle => by simp [idle], fun recv => by simp [recv]⟩
    | true =>
      simp only [Bool.false_eq_true, true_and, false_or]
      refine ⟨fun idle => ?idle, fun recv => ?receiving⟩
      case idle =>
        obtain ⟨_, answer, opened⟩ := step_idle idle edge rst en
        cases answer.symm.trans hstep
        exact opened
      case receiving =>
        by_cases late : s.late e.ports.now
        · obtain ⟨_, answer, -, idle_iff, -⟩ := step_late edge rst en late
          cases answer.symm.trans hstep
          exact idle_iff.trans
            ⟨fun noStart => .inl ⟨late, noStart⟩, fun moves => (moves.resolve_right (·.1 late)).2⟩
        · obtain ⟨_, answer, ⟨idle, hasByte, full⟩ | ⟨still, notFull, -⟩⟩ :=
            step_receiving_early sequencing recv edge rst en late
          · cases answer.symm.trans hstep
            exact iff_of_true idle (.inr ⟨late, hasByte, full⟩)
          · cases answer.symm.trans hstep
            exact iff_of_false (by simp [still]) fun moves => moves.elim (late ·.1) (notFull ·.2)

/-- Enough BYTE edges end a buffer: each step is late, or takes the fourteenth byte, or leaves a state as far from full
as there are bytes still needed. -/
theorem exists_cleared {s : State} {es rest : List Edge} (sequencing : s.SequencingOk) (recv : s.fsm = .receiving)
    (edges : s.inputs = es ++ rest) (steps : ∀ e ∈ es, e.rst = false ∧ e.stepEn = true)
    (enough : 14 - s.len ≤ (es.filter (fun e => e.ports.rxValid)).length) :
    ∃ k t, 1 ≤ k ∧ k ≤ es.length ∧ RunsTo k s t ∧ (t.fsm = .idle ∨ ∃ bs, t.log = [.timeout bs]) := by
  induction es generalizing s with
  | nil =>
    have bound := sequencing.len_le
    rw [List.filter_nil, List.length_nil] at enough
    omega
  | cons e es ih =>
    obtain ⟨⟨rst, en⟩, stepsTail⟩ := List.forall_mem_cons.1 steps
    by_cases late : s.late e.ports.now
    · obtain ⟨t, answer, logged, -⟩ := step_late edges rst en late
      exact ⟨1, t, Nat.le_refl 1, by simp, .cons answer (.zero t), .inr ⟨s.buf, logged⟩⟩
    · obtain ⟨t, answer, ⟨idle, -⟩ | ⟨still, -, inputs, len⟩⟩ :=
        step_receiving_early sequencing recv edges rst en late
      · exact ⟨1, t, Nat.le_refl 1, by simp, .cons answer (.zero t), .inl idle⟩
      · have enoughTail : 14 - t.len ≤ (es.filter (fun e => e.ports.rxValid)).length := by
          cases valid : e.ports.rxValid with
          | false => simpa [len, valid] using enough
          | true =>
            rw [List.filter_cons, if_pos valid, List.length_cons] at enough
            rw [len, if_pos valid]
            omega
        obtain ⟨k, u, -, bound, run, cleared⟩ :=
          ih (step_keeps_sequencing sequencing answer) still inputs stepsTail enoughTail
        exact ⟨k + 1, u, by omega, Nat.succ_le_succ bound, .cons answer run, cleared⟩

/-- Settles O31: `exists_cleared`, where the sequencing invariant has a byte buffered, and `step_late`. -/
theorem bufferIsClearedWithinThirteenBytes : Obligations.BufferIsClearedWithinThirteenBytes := by
  constructor
  · intro s es rest sequencing recv edges steps enough
    obtain ⟨nonempty, -⟩ := sequencing.2 recv
    exact ⟨by omega, exists_cleared sequencing recv edges steps enough⟩
  · intro s e rest edge rst en late
    obtain ⟨t, answer, logged, -, ended⟩ := step_late edge rst en late
    exact ⟨t, answer, logged, ended⟩

end Sys2Proof.Machine
end

section
/-! PROOFS. The Checksum Validator (spec/41_checksum_validator.md R130 to R133, R136): the exclusive-or of a list of
bytes depends on neither their order nor their grouping, and `Validate` tests that offsets 1 to 12 sum to zero. -/

namespace Sys2Proof

/-- The exclusive-or of a list of bytes (R130). -/
def xorBytes (bs : List Byte) : Byte := bs.foldl (· ^^^ ·) 0

theorem xorSum_eq (f : Frame) : xorSum f = xorBytes f.covered := rfl

theorem xorBytes_cons (b : Byte) (bs : List Byte) : xorBytes (b :: bs) = b ^^^ xorBytes bs :=
  (foldl_xor_eq bs (0 ^^^ b)).trans (congrArg (· ^^^ xorBytes bs) BitVec.zero_xor)

theorem xorBytes_concat (bs : List Byte) (b : Byte) : xorBytes (bs ++ [b]) = xorBytes bs ^^^ b :=
  List.foldl_concat ..

theorem xorBytes_perm {bs cs : List Byte} (perm : bs.Perm cs) : xorBytes bs = xorBytes cs :=
  perm.foldl_eq 0

/-- Equal bytes cancel in pairs. -/
theorem xorBytes_replicate_odd (n : Nat) (v : Byte) : xorBytes (List.replicate (2 * n + 1) v) = v := by
  induction n with
  | zero => exact BitVec.zero_xor
  | succ n ih =>
    calc xorBytes (List.replicate (2 * n + 1 + 1 + 1) v)
        = v ^^^ (v ^^^ xorBytes (List.replicate (2 * n + 1) v)) := by
          rw [List.replicate_succ, xorBytes_cons, List.replicate_succ, xorBytes_cons]
      _ = v := by rw [ih, BitVec.xor_self, BitVec.xor_zero]

/-- The sum of the differences is the difference of the sums. -/
theorem xorBytes_zipWith {bs cs : List Byte} (lengths : bs.length = cs.length) :
    xorBytes (List.zipWith (· ^^^ ·) bs cs) = xorBytes bs ^^^ xorBytes cs := by
  induction bs generalizing cs with
  | nil =>
    obtain rfl := List.eq_nil_of_length_eq_zero lengths.symm
    rfl
  | cons b bs ih =>
    obtain ⟨c, cs, rfl⟩ := List.exists_cons_of_length_eq_add_one lengths.symm
    rw [List.zipWith_cons_cons, xorBytes_cons, xorBytes_cons, xorBytes_cons, ih (Nat.succ.inj lengths)]
    ac_rfl

/-- One byte altered: the other bytes are the same, so the sum stays only if the byte does (R136). -/
theorem xorBytes_set_eq_iff {bs : List Byte} {i : Nat} (inside : i < bs.length) (v : Byte) :
    xorBytes (bs.set i v) = xorBytes bs ↔ v = bs[i] := by
  rw [xorBytes_perm (List.set_perm_cons_eraseIdx inside v),
    ← xorBytes_perm (List.getElem_cons_eraseIdx_perm inside), xorBytes_cons, xorBytes_cons, BitVec.xor_left_inj]

theorem xorBytes_innerBytes (f : Frame) : xorBytes (Machine.innerBytes f) = xorSum f ^^^ f.checksum :=
  xorBytes_concat f.covered f.checksum

/-- `Validate` passes when the bytes between the sentinels sum to zero and the start sentinel stands (R131). -/
theorem validate_pass_iff_innerBytes (f : Frame) :
    (validate f).1 = true ↔ xorBytes (Machine.innerBytes f) = 0 ∧ f.start = Config.START := by
  rw [validate_pass_iff, xorBytes_innerBytes]
  exact and_congr_left' BitVec.xor_eq_zero_iff.symm

/-- Offset `i + 1` of the frame is offset `i` of the bytes between the sentinels. -/
theorem innerBytes_of_set {f g : Frame} {i : Nat} {v : Byte} (altered : g.toBytes = f.toBytes.set (i + 1) v) :
    Machine.innerBytes g = (Machine.innerBytes f).set i v := by
  calc Machine.innerBytes g
      = (g.toBytes.drop 1).take 12 := rfl
    _ = ((f.toBytes.drop 1).set i v).take 12 := by rw [altered]; rfl
    _ = (Machine.innerBytes f).set i v := List.take_set ..

/-- The source's frame S-A, with the checksum 41 (spec/95_test_vectors.md T-CHK-11; R130, R131). -/
def exampleFrame : Frame := ⟨0x32, 0x20, 0x84, 0x52, ⟨0x37, 0x37, 0x37, 0x00, 0x80, 0x00, 0x00, 0x00⟩, 0x41, 0x34⟩

/-- Settles O8: the sum is that of the eleven covered bytes, in any order. -/
theorem xorSumCoversOffsetsOneToEleven : Obligations.XorSumCoversOffsetsOneToEleven := by
  refine ⟨fun f => ?formula, fun f g perm => xorBytes_perm perm, fun f v equal => ?equal, fun f bytes => ?sample⟩
  case formula =>
    simp only [xorSum, Frame.covered, List.foldl_cons, List.foldl_nil, BitVec.ofNat_eq_ofNat, BitVec.zero_xor]
  case equal =>
    have covered : f.covered = List.replicate (2 * 5 + 1) v := equal
    rw [xorSum_eq, covered, xorBytes_replicate_odd]
  case sample =>
    obtain rfl : f = exampleFrame := Frame.toBytes_inj bytes
    exact ⟨rfl, rfl⟩

/-- Settles O9: `Validate` reads neither offset 13 nor, for the sum it reports, offsets 0 and 12. -/
theorem validateIsChecksumAndStartSentinel : Obligations.ValidateIsChecksumAndStartSentinel := by
  refine ⟨fun f => ⟨validate_pass_iff f, validate_computed f, fun _ => rfl⟩, fun f bytes => ?sample⟩
  case sample =>
    obtain rfl : f = exampleFrame := Frame.toBytes_inj bytes
    exact ⟨rfl, rfl⟩

/-- Settles O10: a passing frame's bytes at offsets 1 to 12 sum to zero; one altered byte moves the sum, and
alterations that cancel keep it. -/
theorem validateDetectsEverySingleByteError : Obligations.ValidateDetectsEverySingleByteError := by
  intro f g pass
  obtain ⟨zero, -⟩ := (validate_pass_iff_innerBytes f).1 pass
  refine ⟨fun k v low high differs altered => ?single, fun start cancel => ?cancelling⟩
  case single =>
    obtain ⟨i, rfl⟩ := Nat.exists_eq_add_of_le' low
    have inside : i < (Machine.innerBytes f).length := high
    have old : f.toBytes[i + 1]? = some (Machine.innerBytes f)[i] := by
      rw [← List.getElem?_eq_getElem inside]
      exact (List.getElem?_take_of_lt (l := f.toBytes.drop 1) high).symm
    refine Bool.eq_false_iff.2 fun passToo => differs ?_
    obtain ⟨zeroToo, -⟩ := (validate_pass_iff_innerBytes g).1 passToo
    rw [innerBytes_of_set altered] at zeroToo
    rw [old, (xorBytes_set_eq_iff inside v).1 (zeroToo.trans zero.symm)]
  case cancelling =>
    have sums : xorBytes (Machine.innerBytes f) = xorBytes (Machine.innerBytes g) :=
      BitVec.xor_eq_zero_iff.1
        ((xorBytes_zipWith (bs := Machine.innerBytes f) (cs := Machine.innerBytes g) rfl).symm.trans cancel)
    exact (validate_pass_iff_innerBytes g).2 ⟨sums.symm.trans zero, start⟩

end Sys2Proof
end

section
/-! PROOFS. What a completed frame leaves (spec/41_checksum_validator.md R134, R135; spec/42_frame_decoder.md R140): a
failing frame the checksum record, a valid one the effect of the operation its key selects. -/

namespace Sys2Proof.Machine

theorem toBytes_take_append {f : Frame} (isEnd : f.endByte = Config.END) :
    f.toBytes.take 13 ++ [Config.END] = f.toBytes := by
  rw [← isEnd]; rfl

theorem logDump_eq (f : Frame) (dbg : Bool) (s : State) :
    logDump f dbg s = { s with log := s.log ++ (if dbg then [.dump f] else []) } := by
  cases dbg
  · exact congrArg (fun log => { s with log := log }) (List.append_nil s.log).symm
  · rfl

theorem emitted_of_invalid {f : Frame} (dbg : Bool) (s : State) (invalid : (validate f).1 = false) :
    emitted f dbg s =
      { s with log := s.log ++ (if dbg then [.dump f] else []) ++ [.checksumFail f (xorSum f) f.checksum] } := by
  simp [emitted, invalid]

theorem emitted_of_unrecognised {f : Frame} (dbg : Bool) (s : State) (valid : (validate f).1 = true)
    (key : f.hasRecognisedKey = false) :
    emitted f dbg s = { s with log := s.log ++ (if dbg then [.dump f] else []) } := by
  simp [emitted, valid, key]

/-- `Emit` of what the frame decoder accepts is the dump, then the instruction it reads (R134, R140). -/
theorem emit_of_decodeFrame {f : Frame} {i : Instr} (decoded : decodeFrame f = .ok i) (dbg : Bool) (s : State) :
    emit f dbg s = exec i (logDump f dbg s) := by
  obtain ⟨-, -, valid, ⟨key, rfl⟩ | ⟨key, rfl⟩⟩ := decodeFrame_ok decoded
  · rw [emit, if_pos valid, decodeAndRun, if_pos key]; rfl
  · rw [emit, if_pos valid, decodeAndRun, if_neg (by simp [key])]; rfl

/-- The byte that completes a placed frame runs `Emit` on it, the buffer cleared (log entry 9). -/
theorem step_presentFrame {f : Frame} (isEnd : f.endByte = Config.END) (s : State) :
    step (presentFrame f s) = emit f false { s with fsm := .idle, buf := [], tLast := 0, log := [] } := by
  have edge : (presentFrame f s).inputs = byteEdge 0 false Config.END :: s.inputs := by rw [← isEnd]; rfl
  rw [step_byteEdge edge, emit_eq]
  exact exec_byte_complete false rfl (toBytes_take_append isEnd) (not_late_of_near (Near.refl 0))

theorem decodeTableWord_frame {w : Nat} {i : Instr} (decoded : decodeTableWord 112 w = some i) :
    decodeFrame (frameOfTableWord w) = .ok i := by
  rw [decodeTableWord, if_pos rfl] at decoded
  split at decoded
  next ok => cases decoded; exact ok
  next => cases decoded

/-- Settles O27: both completions clear the buffer and emit, and neither frame writes the store; scenario B is a whole
frame. -/
theorem checksumFailureLeavesNoTraceButTheLog : Obligations.ChecksumFailureLeavesNoTraceButTheLog := by
  constructor
  · intro s f g now dbg recv early isEndF isEndG invalid valid other
    have unrecognised : g.hasRecognisedKey = false := Bool.eq_false_iff.2 (mt (hasRecognisedKey_iff g).1 other)
    have completes {h : Frame} (isEnd : h.endByte = Config.END) :=
      exec_byte_complete (s := { s with buf := h.toBytes.take 13 }) dbg recv (toBytes_take_append isEnd) early
    refine ⟨_, _, completes isEndF, completes isEndG, ?_⟩
    rw [emitted_of_invalid _ _ invalid, emitted_of_unrecognised _ _ valid unrecognised]
    exact ⟨rfl, rfl, rfl, rfl, rfl, rfl, rfl⟩
  · exact ⟨_, .frame (s := .reset) (nows := List.replicate 13 0) (last := 0)
      (f := { exampleFrame with checksum := 0xBE }) false [] rfl rfl rfl rfl
      (List.isChain_replicate_of_rel 14 (Near.refl 0)), rfl, rfl⟩

/-- Settles O42: completing a frame is `Emit`, which for a valid frame is the decoded operation. -/
theorem completingStepRunsTheDecodedFrame : Obligations.CompletingStepRunsTheDecodedFrame := by
  constructor
  · intro s f dbg i recv bytes decoded
    calc exec (.byteRecvEnd dbg) s
        = emit f dbg (clearBuffer s) := (execByteRecvEnd_of_frame dbg recv bytes).trans (emit_eq ..).symm
      _ = exec i (logDump f dbg (clearBuffer s)) := emit_of_decodeFrame decoded dbg _
      _ = _ := congrArg (exec i) (logDump_eq ..)
  · intro s w i word
    have decoded := decodeTableWord_frame word
    obtain ⟨-, isEnd, -⟩ := decodeFrame_ok decoded
    exact (step_presentFrame isEnd s).trans (emit_of_decodeFrame decoded false _)

end Sys2Proof.Machine
end

section
/-! PROOFS. The seven extractions (spec/42_frame_decoder.md R144 to R151; spec/30_encoding.md R75 to R81): the value each
takes from its byte, and the bits it does not read. -/

namespace Sys2Proof.Machine

/-! Masks. -/

/-- A mask of the low `k` bits keeps what a cut to `k` bits keeps. -/
theorem setWidth_and_of_low {k : Nat} {m : Byte} (low : m.setWidth k = BitVec.allOnes k) (b : Byte) :
    (b &&& m).setWidth k = b.setWidth k := by
  rw [BitVec.setWidth_and, low, BitVec.and_allOnes]

/-- Flipping bits that a mask leaves out is not seen under the mask. -/
theorem xor_and_of_disjoint {a m : Byte} (disjoint : a &&& m = 0) (b : Byte) : (b ^^^ a) &&& m = b &&& m := by
  apply BitVec.eq_of_toNat_eq
  have masked : a.toNat &&& m.toNat = 0 := congrArg BitVec.toNat disjoint
  rw [BitVec.toNat_and, BitVec.toNat_xor, Nat.and_xor_distrib_right, masked, Nat.xor_zero, BitVec.toNat_and]

theorem and_and_of_disjoint {m m' : Byte} (disjoint : m &&& m' = 0) (b : Byte) : (b &&& m) &&& (b &&& m') = 0 :=
  calc (b &&& m) &&& (b &&& m') = (b &&& b) &&& (m &&& m') := by ac_rfl
    _ = 0 := by rw [disjoint]; exact BitVec.and_zero

/-! Temperatures (R144 to R146, R151). -/

/-- The magnitude has seven bits, so nothing is cut off (R81). -/
theorem magnitude_toNat (b : Byte) : ((b &&& Config.TEMP_MASK).setWidth 7).toNat = (b &&& 0x7F).toNat := by
  have small : (b &&& 0x7F).toNat ≤ 127 := Nat.and_le_right
  exact (BitVec.toNat_setWidth 7 _).trans (Nat.mod_eq_of_lt (Nat.lt_succ_of_le small))

theorem temperatureOf_eq (b : Byte) : temperatureOf b = BitVec.ofInt 8 (((b &&& 0x7F).toNat : Int) - 55) := by
  rw [temperatureOf, tempDecode, magnitude_toNat]; rfl

theorem temperatureOf_toInt (b : Byte) : (temperatureOf b).toInt = ((b &&& 0x7F).toNat : Int) - 55 := by
  rw [temperatureOf, tempDecode_toInt, magnitude_toNat]

theorem temperatureOf_xor_of_disjoint {a : Byte} (disjoint : a &&& Config.TEMP_MASK = 0) (b : Byte) :
    temperatureOf (b ^^^ a) = temperatureOf b := by
  rw [temperatureOf, xor_and_of_disjoint disjoint, temperatureOf]

/-! `fan_speed` and `blade_swing` (R147, R148). -/

theorem fanSpeedOf_eq (b : Byte) : fanSpeedOf b = b.setWidth 3 := setWidth_and_of_low (by decide) b

theorem fanSpeedOf_toNat (b : Byte) : (fanSpeedOf b).toNat = b.toNat % 8 := by
  rw [fanSpeedOf_eq]; exact BitVec.toNat_setWidth 3 b

theorem bladeSwingOf_iff (b : Byte) : bladeSwingOf b = true ↔ b &&& 0xF8 = 0xF8 := beq_iff_eq

/-- A byte is its bits 7:3 and its bits 2:0. -/
theorem toNat_eq_swing_add_fan (b : Byte) : b.toNat = (b &&& 0xF8).toNat + b.toNat % 8 := by
  have disjoint : (b &&& 0xF8) &&& (b &&& 0x07) = 0 := and_and_of_disjoint (by decide) b
  have whole : (b &&& 0xF8) + (b &&& 0x07) = b := by
    rw [BitVec.add_eq_or_of_and_eq_zero _ _ disjoint, ← BitVec.and_or_distrib_left]
    exact BitVec.and_allOnes
  have low : (b &&& 0x07).toNat = b.toNat % 8 := Nat.and_two_pow_sub_one_eq_mod b.toNat 3
  calc b.toNat = ((b &&& 0xF8) + (b &&& 0x07)).toNat := by rw [whole]
    _ = (b &&& 0xF8).toNat + b.toNat % 8 := by rw [BitVec.toNat_add_of_and_eq_zero disjoint, low]

/-- Bits 7:3 are all 1 from `F8` up. -/
theorem swingBits_iff (b : Byte) : b &&& 0xF8 = 0xF8 ↔ 0xF8 ≤ b.toNat := by
  have split := toNat_eq_swing_add_fan b
  have bound : b.toNat < 256 := b.isLt
  rw [← BitVec.toNat_inj]
  change (b &&& 0xF8).toNat = 0xF8 ↔ _
  omega

/-! `power_on` and `remote_control_source` (R149, R150). -/

theorem powerOnOf_iff (b : Byte) : powerOnOf b = true ↔ b &&& 0x80 = 0x80 := beq_iff_eq

theorem powerOnOf_eq (b : Byte) : powerOnOf b = b.getLsbD 7 := by
  have bit : b &&& Config.POWER_MASK = if b.getLsbD 7 then Config.POWER_MASK else 0 := BitVec.and_twoPow b 7
  rw [powerOnOf, bit]
  cases b.getLsbD 7 <;> rfl

theorem remoteControlSourceOf_eq (b : Byte) : remoteControlSourceOf b = b.setWidth 4 :=
  setWidth_and_of_low (by decide) b

theorem remoteControlSourceOf_toNat (b : Byte) : (remoteControlSourceOf b).toNat = b.toNat % 16 := by
  rw [remoteControlSourceOf_eq]; exact BitVec.toNat_setWidth 4 b

/-! All seven (R141). -/

theorem decodedFields_eq (p : Payload) :
    decodedFields p =
      { setTemperature := BitVec.ofInt 8 (((p.p0 &&& 0x7F).toNat : Int) - 55)
        roomTemperature := BitVec.ofInt 8 (((p.p1 &&& 0x7F).toNat : Int) - 55)
        pipeInTemperature := BitVec.ofInt 8 (((p.p2 &&& 0x7F).toNat : Int) - 55)
        fanSpeed := p.p3.extractLsb' 0 3
        bladeSwing := decide (p.p3 &&& 0xF8 = 0xF8)
        powerOn := p.p4.getLsbD 7
        remoteControlSource := p.p4.extractLsb' 0 4 } := by
  rw [decodedFields, temperatureOf_eq, temperatureOf_eq, temperatureOf_eq, fanSpeedOf_eq, powerOnOf_eq,
    remoteControlSourceOf_eq, BitVec.setWidth_eq_extractLsb' (by decide), BitVec.setWidth_eq_extractLsb' (by decide),
    Bool.eq_iff_iff.2 ((bladeSwingOf_iff p.p3).trans decide_eq_true_iff.symm)]

end Sys2Proof.Machine
end

section
/-! PROOFS. The two frame operations (spec/42_frame_decoder.md R140 to R150, R157): what FRAME.STATUS52 writes, field by
field, and the no-op. -/

namespace Sys2Proof.Machine

/-- FRAME.STATUS52 writes the store and nothing else (R141). -/
theorem exec_frameStatus52 (p : Payload) (s : State) :
    exec (.frameStatus52 p) s = .next (writeStore (decodedFields p) s) := rfl

theorem exec_frameStatus52_congr {p q : Payload} (same : decodedFields p = decodedFields q) (s : State) :
    exec (.frameStatus52 p) s = exec (.frameStatus52 q) s := by
  rw [exec_frameStatus52, exec_frameStatus52, same]

theorem eq_of_exec_frameStatus52 {p : Payload} {s t : State} (run : exec (.frameStatus52 p) s = .next t) :
    t = writeStore (decodedFields p) s := by
  cases run; rfl

theorem fields_of_exec_frameStatus52 {p : Payload} {s t : State} {v : StoreFields}
    (run : exec (.frameStatus52 p) s = .next t) (stored : t.store = some v) : v = decodedFields p := by
  rw [eq_of_exec_frameStatus52 run] at stored
  exact (Option.some.inj stored).symm

/-- FRAME.UNRECOGNISED is the silent condition of R143, for every key but the recognised one. -/
theorem exec_frameUnrecognised {source destination command : Byte}
    (other : isRecognisedKey source destination command = false) (p : Payload) (s : State) :
    exec (.frameUnrecognised source destination command p) s = .next s :=
  if_neg (by simp [other])

/-- Settles O11: the frame decoder's choice by the key, then the seven extractions. -/
theorem status52WritesTheSevenRegisters : Obligations.Status52WritesTheSevenRegisters := by
  refine ⟨?decoded, fun p s => ?written, fun s => ?sample⟩
  case decoded =>
    intro f start isEnd checksum source destination command
    obtain ⟨-, -, -, accepted⟩ := frameDecoderAcceptsExactlyTheValidFrames f
    exact (accepted start isEnd checksum).1 ⟨source, destination, command⟩
  case written => rw [exec_frameStatus52, decodedFields_eq]; rfl
  case sample =>
    have fields : decodedFields exampleFrame.payload = ⟨0, 0, 0, 0, false, true, 0⟩ := by decide
    exact (exec_frameStatus52 exampleFrame.payload s).trans (by rw [fields]; rfl)

/-- Settles O12: each register is `temperatureOf` its byte, whose range is `decodedFields_inRange` and whose mask leaves
out bit 7. -/
theorem temperatureRegistersHoldRawLess55 : Obligations.TemperatureRegistersHoldRawLess55 := by
  refine ⟨fun p s => ?value, fun p s => ?bit7, fun b corner => ?corners⟩
  case value =>
    obtain ⟨setRange, roomRange, pipeRange⟩ := decodedFields_inRange p
    exact ⟨_, decodedFields p, exec_frameStatus52 p s, rfl, temperatureOf_toInt p.p0, temperatureOf_toInt p.p1,
      temperatureOf_toInt p.p2, setRange, roomRange, pipeRange⟩
  case bit7 =>
    have unread (b : Byte) : temperatureOf (b ^^^ 0x80) = temperatureOf b := temperatureOf_xor_of_disjoint (by decide) b
    exact exec_frameStatus52_congr (by simp only [decodedFields, unread]) s
  case corners =>
    have value : (temperatureOf b.1).toInt = b.2 := by
      revert b
      decide
    intro p s t v e0 e1 e2 run stored
    obtain rfl := fields_of_exec_frameStatus52 run stored
    simp only [decodedFields, e0, e1, e2, value, and_self]

/-- Settles O13: `fan_speed` is the byte modulo 8, and bits 7:3 are all 1 from `F8` up. -/
theorem fanSpeedAndBladeSwingFields : Obligations.FanSpeedAndBladeSwingFields := by
  intro p s
  refine ⟨_, decodedFields p, exec_frameStatus52 p s, rfl, fanSpeedOf_toNat p.p3, bladeSwingOf_iff p.p3,
    (bladeSwingOf_iff p.p3).trans (swingBits_iff p.p3), fun e => ?_, fun e => ?_, fun e => ?_⟩ <;>
    simp only [decodedFields, e] <;> decide

/-- Settles O14: `power_on` is bit 7, the source the byte modulo 16, and neither mask holds a bit of `70`. -/
theorem powerAndControlSourceFields : Obligations.PowerAndControlSourceFields := by
  refine ⟨fun p s => ?value, fun p s m => ?unread⟩
  case value =>
    refine ⟨_, decodedFields p, exec_frameStatus52 p s, rfl, powerOnOf_eq p.p4, powerOnOf_iff p.p4,
      remoteControlSourceOf_toNat p.p4, fun e => ?_, fun e => ?_, fun e => ?_⟩ <;>
      simp only [decodedFields, e] <;> decide
  case unread =>
    have keeps {field : Byte} (disjoint : 0x70 &&& field = 0) : (p.p4 ^^^ (m &&& 0x70)) &&& field = p.p4 &&& field :=
      xor_and_of_disjoint (by rw [BitVec.and_assoc, disjoint]; exact BitVec.and_zero) p.p4
    refine exec_frameStatus52_congr ?_ s
    simp only [decodedFields, powerOnOf, remoteControlSourceOf]
    rw [keeps (field := Config.POWER_MASK) (by decide), keeps (field := Config.SOURCE_MASK) (by decide)]

/-- Settles O15: each field is a function of its byte under its own mask. -/
theorem fieldsOfOneByteAreIndependent : Obligations.FieldsOfOneByteAreIndependent := by
  intro p q s t u v w runP storedP runQ storedQ
  obtain rfl := fields_of_exec_frameStatus52 runP storedP
  obtain rfl := fields_of_exec_frameStatus52 runQ storedQ
  refine ⟨congrArg (BitVec.setWidth 3), congrArg (· == Config.SWING_MASK), congrArg (· == Config.POWER_MASK),
    congrArg (BitVec.setWidth 4), fun e0 e1 e2 e3 e4 => ?unread⟩
  case unread =>
    have same : decodedFields p = decodedFields q := by simp only [decodedFields, e0, e1, e2, e3, e4]
    rw [eq_of_exec_frameStatus52 runP, eq_of_exec_frameStatus52 runQ, same]

/-- Settles O17: the frame decoder's other choice, and for the completing step `Emit` of a valid frame whose key is not
the recognised one. -/
theorem unrecognisedFrameChangesNothing : Obligations.UnrecognisedFrameChangesNothing := by
  intro f start isEnd checksum other
  have valid : (validate f).1 = true := (validate_pass_iff f).2 ⟨checksum, start⟩
  have key : f.hasRecognisedKey = false := Bool.eq_false_iff.2 (mt (hasRecognisedKey_iff f).1 other)
  refine ⟨?decoded, exec_frameUnrecognised key f.payload, fun s now dbg recv bytes early => ?completed⟩
  case decoded =>
    obtain ⟨-, -, -, accepted⟩ := frameDecoderAcceptsExactlyTheValidFrames f
    exact (accepted start isEnd checksum).2 other
  case completed =>
    calc exec (.byte now Config.END dbg) s
        = .next (emitted f dbg (clearBuffer { s with tLast := now, log := [] })) :=
          exec_byte_complete dbg recv bytes early
      _ = _ := by rw [emitted_of_unrecognised dbg _ valid key]; rfl

end Sys2Proof.Machine
end

section
/-! PROOFS. The debug level (spec/43_state_store.md R181, R182): forgetting the dumps and the debug levels commutes with
every operation of the block, so the run without debug is the run with debug, its dumps forgotten. -/

namespace Sys2Proof.Machine

theorem State.withoutDbg_inputs {s : State} {e : Edge} {rest : List Edge} (edge : s.inputs = e :: rest) :
    s.withoutDbg.inputs = e.withoutDbg :: rest.map Edge.withoutDbg :=
  congrArg (List.map Edge.withoutDbg) edge

/-- A record that is no dump is not forgotten. -/
theorem logRecord_withoutDbg {r : LogRecord} (isWarning : r.isDump = false) (s : State) :
    (logRecord r s).withoutDbg = logRecord r s.withoutDbg := by
  simp [logRecord, State.withoutDbg, isWarning]

theorem raise_timeout_withoutDbg (s : State) : (raise .timeout s).withoutDbg = raise .timeout s.withoutDbg :=
  congrArg clearBuffer (logRecord_withoutDbg rfl s)

theorem raise_overrun_withoutDbg (s : State) : (raise .overrun s).withoutDbg = raise .overrun s.withoutDbg :=
  congrArg clearBuffer (logRecord_withoutDbg rfl s)

/-- The timeout test reads neither the log nor the debug level (R103). -/
theorem timeoutPhase_withoutDbg (now : Time) (s : State) :
    (timeoutPhase now s).withoutDbg = timeoutPhase now s.withoutDbg := by
  have sameTest : timeoutFires now s.withoutDbg = timeoutFires now s := rfl
  rw [timeoutPhase, timeoutPhase, sameTest, ← raise_timeout_withoutDbg]
  exact apply_ite State.withoutDbg _ _ _

theorem byteCommon_withoutDbg (now : Time) (s : State) : (byteCommon now s).withoutDbg = byteCommon now s.withoutDbg :=
  congrArg (setTLast now) (timeoutPhase_withoutDbg now (beginStep s))

/-- `Emit` reads the debug level for the dump alone (R134, R181). -/
theorem emitted_withoutDbg (f : Frame) (dbg : Bool) (s : State) :
    (emitted f dbg s).withoutDbg = emitted f false s.withoutDbg := by
  cases dbg <;> cases valid : (validate f).1 <;> simp [emitted, State.withoutDbg, LogRecord.isDump, valid]

/-- The debug level selects no sub-operation, and each but the completion ignores it (R107). -/
theorem BytePhaseTo.withoutDbg {b : Byte} {dbg : Bool} {s t : State} (phase : BytePhaseTo b dbg s t) :
    bytePhase b false s.withoutDbg = .next t.withoutDbg := by
  cases phase with
  | start idle isStart =>
    rw [isStart]
    exact bytePhase_start false (s := s.withoutDbg) idle
  | noise idle noStart => exact bytePhase_noise false (s := s.withoutDbg) idle noStart
  | fill recv short =>
    have room : s.len ≤ 12 := by omega
    exact bytePhase_fill b false (s := s.withoutDbg) recv room
  | complete f recv isEnd bytes =>
    rw [emitted_withoutDbg, isEnd]
    exact bytePhase_of_frame false (s := s.withoutDbg) recv (isEnd ▸ bytes)
  | overrun recv full noEnd =>
    have selected : ByteOp.Selected .recvOverrun b s.withoutDbg := ⟨recv, Nat.le_of_lt_succ full, noEnd⟩
    have counted : ¬(s.len + 1 = 14 ∧ b = Config.END) := fun last => noEnd ⟨by omega, last.2⟩
    rw [bytePhase_of_selected false selected]
    exact exec_byteRecvOverrun_eq_next_iff.2 ⟨⟨recv, full, counted⟩, (raise_overrun_withoutDbg (appendByte b s)).symm⟩

theorem step_withoutDbg {s t : State} (h : step s = .next t) : step s.withoutDbg = .next t.withoutDbg := by
  cases stepTo_of_step h with
  | noEdge noInput => exact step_no_input (s := s.withoutDbg) (congrArg (List.map Edge.withoutDbg) noInput)
  | reset edge rst => exact step_reset (s := s.withoutDbg) (State.withoutDbg_inputs edge) rst
  | idle edge rst en =>
    exact edgeWithoutStepChangesNothing.1 s.withoutDbg _ _ (State.withoutDbg_inputs edge) rst en
  | @tick e rest edge rst en noByte =>
    rw [step_strobe (State.withoutDbg_inputs edge) rst en, decodeStep_tick (p := e.withoutDbg.ports) noByte,
      timeoutPhase_withoutDbg]
    rfl
  | @byte e rest _ edge rst en hasByte phase =>
    rw [step_strobe (State.withoutDbg_inputs edge) rst en, decodeStep_byte (p := e.withoutDbg.ports) hasByte]
    have answer := phase.withoutDbg
    rw [byteCommon_withoutDbg] at answer
    exact answer

theorem RunsTo.withoutDbg {n : Nat} {s t : State} (run : RunsTo n s t) : RunsTo n s.withoutDbg t.withoutDbg := by
  induction n generalizing s with
  | zero => cases run.of_zero; exact .zero _
  | succ n ih =>
    obtain ⟨u, hstep, rest⟩ := RunsTo.succ_iff.1 run
    exact .cons (step_withoutDbg hstep) (ih rest)

/-- Settles O37: both runs, their dumps forgotten, are the one run without debug. -/
theorem debugLevelOnlyAddsDumps : Obligations.DebugLevelOnlyAddsDumps := by
  intro n s s' t t' same run run'
  have shared : RunsTo n s.withoutDbg t'.withoutDbg := same ▸ run'.withoutDbg
  exact run.withoutDbg.unique shared

end Sys2Proof.Machine
end

section
/-! PROOFS. The log of one step (spec/43_state_store.md R178, R180, R181): its records, with their data. -/

namespace Sys2Proof.Machine

theorem exec_tick_log_cases {now : Time} {s t : State} (h : exec (.tick now) s = .next t) :
    t.log = [] ∨ (t.log = [.timeout s.buf] ∧ s.late now) := by
  by_cases late : s.late now
  · cases (exec_tick_late late).symm.trans h
    exact .inr ⟨rfl, late⟩
  · cases (exec_tick_not_late late).symm.trans h
    exact .inl rfl

/-- A late BYTE records the timeout alone: what follows it in IDLE records nothing (R102, R109). -/
theorem exec_byte_late_log {now : Time} {b : Byte} {dbg : Bool} {s t : State} (late : s.late now)
    (h : exec (.byte now b dbg) s = .next t) : t.log = [.timeout s.buf] := by
  cases (exec_byte_late_eq b dbg late).symm.trans h
  split <;> rfl

/-- `Emit` of a frame that starts as it should records by the verdict and the debug level (R134). -/
theorem emitted_log_cases {f : Frame} (dbg : Bool) {s : State} (empty : s.log = []) (start : f.start = Config.START) :
    (dbg = false ∧ (emitted f dbg s).log = [] ∧ xorSum f = f.checksum) ∨
    (dbg = false ∧ (emitted f dbg s).log = [.checksumFail f (xorSum f) f.checksum] ∧ xorSum f ≠ f.checksum) ∨
    (dbg = true ∧ (emitted f dbg s).log = [.dump f] ∧ xorSum f = f.checksum) ∨
    (dbg = true ∧ (emitted f dbg s).log = [.dump f, .checksumFail f (xorSum f) f.checksum] ∧
      xorSum f ≠ f.checksum) := by
  have verdict : (validate f).1 = true ↔ xorSum f = f.checksum := by simp [validate_pass_iff, start]
  by_cases pass : xorSum f = f.checksum
  · have valid := verdict.2 pass
    cases dbg <;> simp [emitted, empty, valid, pass]
  · have invalid := Bool.eq_false_iff.2 (mt verdict.1 pass)
    cases dbg <;> simp [emitted, empty, invalid, pass]

/-- The log of a byte phase that begins with none: an overrun or a completion can write it. -/
theorem BytePhaseTo.log_cases {b : Byte} {dbg : Bool} {s t : State} (h : s.SequencingOk) (empty : s.log = [])
    (phase : BytePhaseTo b dbg s t) :
    t.log = [] ∨
    (t.log = [.overrun (s.buf ++ [b])] ∧ s.len = 13 ∧ b ≠ Config.END ∧ memRead s 0 = some Config.START) ∨
    ∃ f : Frame, f.toBytes = s.buf ++ [b] ∧ f.start = Config.START ∧ f.endByte = Config.END ∧
      ((dbg = false ∧ t.log = [.checksumFail f (xorSum f) f.checksum] ∧ xorSum f ≠ f.checksum) ∨
       (dbg = true ∧ t.log = [.dump f] ∧ xorSum f = f.checksum) ∨
       (dbg = true ∧ t.log = [.dump f, .checksumFail f (xorSum f) f.checksum] ∧ xorSum f ≠ f.checksum)) := by
  cases phase with
  | start | noise | fill => exact .inl empty
  | complete f recv isEnd bytes =>
    subst isEnd
    have start : f.start = Config.START := start_of_completes h recv bytes
    rcases emitted_log_cases dbg (s := clearBuffer s) empty start with ⟨-, silent, -⟩ | recorded
    · exact .inl silent
    · exact .inr (.inr ⟨f, bytes.symm, start, (Frame.endByte_of_append bytes).1.symm, recorded⟩)
  | overrun recv full noEnd =>
    obtain ⟨-, bound, starts⟩ := h.2 recv
    have len : s.len = 13 := by omega
    exact .inr (.inl ⟨by rw [empty]; rfl, len, fun isEnd => noEnd ⟨len, isEnd⟩, starts⟩)

/-- Settles O43: TICK and a late BYTE by their timeout, any other BYTE by its byte phase. -/
theorem logHasOneOfSixShapes : Obligations.LogHasOneOfSixShapes := by
  refine fun s t now b dbg sequencing => ⟨exec_tick_log_cases, fun answer => ?byte⟩
  by_cases late : s.late now
  · exact .inr (.inl ⟨exec_byte_late_log late answer, late⟩)
  · rw [exec_byte_not_late b dbg late] at answer
    have phase := bytePhaseTo_of_bytePhase answer
    have timed : State.SequencingOk { s with tLast := now, log := [] } := sequencing
    rcases phase.log_cases timed rfl with silent | overrun | completed
    · exact .inl silent
    · exact .inr (.inr (.inl overrun))
    · exact .inr (.inr (.inr completed))

end Sys2Proof.Machine
end

section
/-! PROOFS. The event ports (spec/43_state_store.md R179, R180; 60_exceptions.md R203). -/

namespace Sys2Proof.Machine

/-- A warning alone gives every port. -/
theorem evPorts_warning {r : LogRecord} (isWarning : r.isDump = false) :
    evPorts [r] = ⟨r.code, false, BitVec.ofNat 4 r.bytes.length, r.bytes, r.checksums⟩ := by
  simp [evPorts, isWarning]

theorem evPorts_dump (f : Frame) : evPorts [.dump f] = ⟨0, true, 14, f.toBytes, none⟩ := rfl

/-- A dump before a warning gives the bytes, the warning the code and the checksum values (R180). -/
theorem evPorts_dump_warning (f : Frame) {r : LogRecord} (isWarning : r.isDump = false) :
    evPorts [.dump f, r] = ⟨r.code, true, 14, f.toBytes, r.checksums⟩ := by
  have isDump : (LogRecord.dump f).isDump = true := rfl
  simp [evPorts, LogRecord.bytes, isDump, isWarning]

/-- Settles O44: three warnings alone, a dump alone, and a dump before a warning. -/
theorem eventPortsEncodeTheLog : Obligations.EventPortsEncodeTheLog := by
  refine ⟨rfl, fun bs _ => evPorts_warning rfl, fun bs len => ?overrun, fun f c r => evPorts_warning rfl, evPorts_dump,
    fun f c r => evPorts_dump_warning f rfl⟩
  case overrun =>
    have ports := evPorts_warning (r := .overrun bs) rfl
    simp only [LogRecord.bytes, len] at ports
    exact ports

end Sys2Proof.Machine
end

section
/-! PROOFS. The read port of the State Store (spec/43_state_store.md R170, R171; 10_state.md R31). -/

namespace Sys2Proof.Machine

theorem readStore_of_store_some {s : State} {v : StoreFields} (h : s.store = some v) (name : FieldName) :
    s.readStore 0x20 name = some (v.get name) :=
  congrArg Sample.value (sampleEntry_of_store_some h name)

theorem readStore_of_store_none {s : State} (h : s.store = none) (unit : Byte) (name : FieldName) :
    s.readStore unit name = none :=
  congrArg Sample.value (sampleEntry_of_store_none h unit name)

/-- The store has one unit (R30). -/
theorem readStore_of_other_unit {unit : Byte} (other : unit ≠ 0x20) (s : State) (name : FieldName) :
    s.readStore unit name = none :=
  if_neg other

theorem stValid_eq_false_iff (s : State) : s.stValid = false ↔ s.store = none := by
  simp [State.stValid]

/-- Settles O50: after the decode the store holds the decoded fields, and without `ST.valid` it holds none. -/
theorem readPortShowsTheLastDecodedValues : Obligations.ReadPortShowsTheLastDecodedValues := by
  intro s t p name unit
  refine ⟨fun run => ?decoded, fun other => readStore_of_other_unit other s name, fun invalid => ?invalid⟩
  case decoded =>
    obtain rfl := eq_of_exec_frameStatus52 run
    exact ⟨readStore_of_store_some (writeStore_store _ s) name, rfl, rfl⟩
  case invalid =>
    have absent : s.store = none := (stValid_eq_false_iff s).1 invalid
    exact ⟨readStore_of_store_none absent unit name, absent⟩

end Sys2Proof.Machine
end

section
/-! PROOFS. The conditions and the recovery after them (spec/60_exceptions.md R203, R213, R215): a warning leaves IDLE,
an empty buffer and the store it found, from where noise is discarded up to the next start sentinel. -/

namespace Sys2Proof.Machine

/-- Settles O45: the entry actions by `raise`'s own laws, the codes by the table of R203. -/
theorem conditionEntryActions : Obligations.ConditionEntryActions := fun s f c r =>
  ⟨raise_framing s, raise_unrecognisedKey s, raise_timeout s, raise_overrun s, raise_checksumFailure f c r s,
    rfl, rfl, rfl, rfl, rfl⟩

/-- One of the records is a warning: a dump is none (R179). -/
def HasWarning (log : List LogRecord) : Prop := ∃ r ∈ log, r.code ≠ 0

theorem not_hasWarning_nil : ¬ HasWarning [] := by simp [HasWarning]

/-- What a valid frame records, at most a dump, is no warning. -/
theorem invalid_of_emitted_hasWarning {f : Frame} {dbg : Bool} {s : State} (empty : s.log = [])
    (warned : HasWarning (emitted f dbg s).log) : (validate f).1 = false := by
  by_contra valid
  rw [Bool.not_eq_false] at valid
  cases dbg <;> simp [HasWarning, emitted, empty, valid, LogRecord.code] at warned

/-- `t` is in IDLE with an empty buffer and the store of `s`. -/
def DroppedTo (s t : State) : Prop := t.fsm = .idle ∧ t.buf = [] ∧ t.store = s.store

theorem exec_tick_drops_of_log {now : Time} {s t : State} (answer : exec (.tick now) s = .next t)
    (logged : t.log ≠ []) : DroppedTo s t := by
  by_cases late : s.late now
  · cases (exec_tick_late late).symm.trans answer
    exact ⟨rfl, rfl, rfl⟩
  · cases (exec_tick_not_late late).symm.trans answer
    exact absurd rfl logged

/-- The byte phase warns of an overrun or of a checksum failure, and both leave the buffer cleared (R113, R114). -/
theorem BytePhaseTo.drops_of_hasWarning {b : Byte} {dbg : Bool} {s t : State} (phase : BytePhaseTo b dbg s t)
    (empty : s.log = []) (warned : HasWarning t.log) : DroppedTo s t := by
  cases phase with
  | start | noise | fill => exact absurd (empty ▸ warned : HasWarning []) not_hasWarning_nil
  | complete f =>
    have invalid := invalid_of_emitted_hasWarning (s := clearBuffer s) empty warned
    rw [emitted_of_invalid dbg _ invalid]
    exact ⟨rfl, rfl, rfl⟩
  | overrun => exact ⟨rfl, rfl, rfl⟩

theorem exec_byte_drops_of_hasWarning {now : Time} {b : Byte} {dbg : Bool} {s t : State} (early : ¬ s.late now)
    (answer : exec (.byte now b dbg) s = .next t) (warned : HasWarning t.log) : DroppedTo s t := by
  rw [exec_byte_not_late b dbg early] at answer
  exact (bytePhaseTo_of_bytePhase answer).drops_of_hasWarning rfl warned

/-- From IDLE the first start sentinel opens a buffer, whatever noise comes before it (R108, R109). -/
theorem RunsTo.noise_then_start {s : State} (now : Time) (dbg : Bool) {noise : List Byte} (rest : List Edge)
    (idle : s.fsm = .idle) (noStart : ∀ b ∈ noise, b ≠ Config.START) :
    RunsTo (noise.length + 1) { s with inputs := batch now dbg (noise ++ [Config.START]) ++ rest }
      { s with fsm := .receiving, buf := [Config.START], tLast := now, log := [], inputs := rest } := by
  induction noise generalizing s with
  | nil => exact .byte rfl (exec_byte_start now dbg idle) (.zero _)
  | cons b noise ih =>
    obtain ⟨noStartHead, noStartTail⟩ := List.forall_mem_cons.1 noStart
    exact .byte rfl (exec_byte_noise now dbg idle noStartHead)
      (ih (s := { s with tLast := now, log := [] }) idle noStartTail)

/-- Settles O46: a late TICK, an overrun and a checksum failure each drop to IDLE, and IDLE waits for the next start
sentinel. -/
theorem recoveryAfterACondition : Obligations.RecoveryAfterACondition := by
  intro s t now b dbg _ condition
  have dropped : DroppedTo s t := by
    rcases condition with ⟨answer, logged⟩ | ⟨answer, early, warned⟩
    · exact exec_tick_drops_of_log answer logged
    · exact exec_byte_drops_of_hasWarning early answer warned
  obtain ⟨idle, empty, kept⟩ := dropped
  exact ⟨idle, empty, kept, fun noise now' dbg' rest => .noise_then_start now' dbg' rest idle⟩

end Sys2Proof.Machine
end

section
/-! PROOFS. The reset edge (spec/70_reset_and_hazards.md R240, R241): what it leaves, through the buffer's length, the
valid bit and the event ports of R44. -/

namespace Sys2Proof.Machine

@[simp] theorem applyReset_len (s : State) : (applyReset s).len = 0 := rfl

@[simp] theorem applyReset_stValid (s : State) : (applyReset s).stValid = false :=
  (stValid_eq_false_iff _).2 (applyReset_store s)

/-- Without a record no event is signalled (R179). -/
@[simp] theorem evPorts_nil : evPorts [] = ⟨0, false, 0, [], none⟩ := rfl

/-- Settles O39: the step is the reset whatever the strobe and the ports are, and the empty log it leaves signals
nothing. -/
theorem resetEdgeWinsAndClears : Obligations.ResetEdgeWinsAndClears := by
  intro s e rest edge rst
  refine ⟨_, step_reset edge rst, applyReset_fsm _, applyReset_len _, applyReset_stValid _, applyReset_log _, ?code,
    ?dump, applyReset_inputs _⟩
  case code => rw [applyReset_log, evPorts_nil]
  case dump => rw [applyReset_log, evPorts_nil]

end Sys2Proof.Machine
end
